-- ==== Sys2Proof/Word.lean ====
section
/-!
DEFINITION. The widths of the machine (R6 in 00_scope.md) and the shapes of its multi-word storage. Types only:
the operations on bits stand in Machine/Bits.lean.
-/

namespace Sys2Proof

/-- One byte of data memory, or of the stream (R61 in 20_memory.md). -/
abbrev Byte := BitVec 8

/-- A 32-bit value: `XLEN`, `AW` and `LW` are all 32 (R6 in 00_scope.md). -/
abbrev Word := BitVec 32

/-- One command word, `CWW` = 64 bits (R90, R91 in 30_encoding.md). -/
abbrev CmdWord := BitVec 64

/-- The lookup table `TBL`: eight sets of 256 entries (R40 in 10_state.md). -/
abbrev Table := Vector (Vector Word 256) 8

/-- A 32x32 bit matrix over GF(2), as 32 rows; row `i` is the image of bit `i` (R200 in 46_combine.md). -/
abbrev BitMatrix := Vector Word 32

end Sys2Proof
end

