-- ==== Sys2Proof/Syntax.lean ====
section
/-!
DEFINITION. The commands, one constructor for each row of spec/opcode_table.json (R94, R100 in 30_encoding.md).
-/

namespace Sys2Proof

/-- The eight operand registers, in the order of their indices 0 to 7 (R21 in 10_state.md). Indices 8 to 15 name no
register (R36), so a command that names one has no term here: the decoder refuses it. -/
inductive Reg where
  /-- checksum, public convention (R22) -/
  | crc
  /-- second checksum of a combine (R23) -/
  | crcb
  /-- address of the buffer (R24) -/
  | addr
  /-- length (R25) -/
  | len
  /-- high half of a 64-bit length (R26) -/
  | lenh
  /-- working register, internal convention (R27) -/
  | acc
  /-- control register (R30) -/
  | ctrl
  /-- status register, read only (R31) -/
  | status
deriving DecidableEq, Repr

/-- A command with its operands (R95). -/
inductive Instr where
  /-- `WR r, d` (R120) -/
  | wr (r : Reg) (d : Word)
  /-- `RD r` (R121) -/
  | rd (r : Reg)
  /-- `TBUILD` (R136) -/
  | tbuild
  /-- `TRD k, n` (R137) -/
  | trd (k : BitVec 3) (n : Byte)
  /-- `STEPB imm8` (R151) -/
  | stepb (imm8 : Byte)
  /-- `STEPW w` (R163) -/
  | stepw (w : Word)
  /-- `UPDATE`, the buffer present, `p` = 1 (R170) -/
  | update
  /-- `UPDATE.NB`, no buffer, `p` = 0 (R170) -/
  | updateNb
  /-- `COMB32` (R208) -/
  | comb32
  /-- `COMB64` (R209) -/
  | comb64
deriving DecidableEq, Repr

end Sys2Proof
end

