-- ==== Sys2Proof/WellFormed.lean ====
section
/-!
DEFINITION. Which terms of `Instr` stand for a legal command word: the conditions on `r` of R94 in 30_encoding.md.
-/

namespace Sys2Proof

/-- `STATUS` is read only, so `WR STATUS` is no command (R94: `r` in 0 to 6 for `WR`; R97 d). All other operand values
are legal, and `r` in 8 to 15 cannot be written as a term. -/
def Instr.wf : Instr → Bool
  | .wr r _ => r != .status
  | .rd _ => true
  | .tbuild => true
  | .trd _ _ => true
  | .stepb _ => true
  | .stepw _ => true
  | .update => true
  | .updateNb => true
  | .comb32 => true
  | .comb64 => true

end Sys2Proof
end

