-- ==== Sys2Proof/Decode.lean ====
section
/-!
DEFINITION. Command words to commands and back (30_encoding.md). `decode` is total (R102): a word is one of the
commands or is refused with the cause R232 names. The encoder after it is written from the formats of R92.
-/

namespace Sys2Proof

/-- Why a word is no command: the four causes of R232 in 60_exceptions.md. The machine records none of them (R231), and
which one a word with several gets is the model's (R234; log 13). -/
inductive IllegalCause where
  /-- `op` is none of the nine opcodes (R97 a) -/
  | undefinedOpcode
  /-- a must-be-zero bit of the format is set (R96, R97 b) -/
  | reservedBit
  /-- `WR` or `RD` with `r` in 8 to 15 (R36, R97 c) -/
  | noSuchRegister
  /-- `WR` with `r` = 7 (R97 d) -/
  | readOnlyRegister
deriving DecidableEq, Repr

/-- `op` = `CW[63:56]` (R91). -/
def opField (cw : CmdWord) : BitVec 8 := cw.extractLsb' 56 8

/-- `r` = `CW[35:32]` (R95). -/
def rField (cw : CmdWord) : BitVec 4 := cw.extractLsb' 32 4

/-- `k` = `CW[42:40]` (R95). -/
def kField (cw : CmdWord) : BitVec 3 := cw.extractLsb' 40 3

/-- `n` = `CW[39:32]` (R95). -/
def nField (cw : CmdWord) : Byte := cw.extractLsb' 32 8

/-- `imm8` = `CW[7:0]` (R95). -/
def imm8Field (cw : CmdWord) : Byte := cw.extractLsb' 0 8

/-- `d` and `w` = `CW[31:0]` (R95). -/
def imm32Field (cw : CmdWord) : Word := cw.extractLsb' 0 32

/-- `CW & mask = match`, the test of a row of R94. -/
def rowMatches (mask fixed cw : CmdWord) : Bool := cw &&& mask == fixed

/-- The register an index names, if it names one (R21, R36). -/
def regOfIndex (r : BitVec 4) : Option Reg :=
  if r = 0 then some .crc
  else if r = 1 then some .crcb
  else if r = 2 then some .addr
  else if r = 3 then some .len
  else if r = 4 then some .lenh
  else if r = 5 then some .acc
  else if r = 6 then some .ctrl
  else if r = 7 then some .status
  else none

/-- The row of `WR`, once its mask and match hold: the condition on `r` (R94). -/
def decodeWr (cw : CmdWord) : Except IllegalCause Instr :=
  match regOfIndex (rField cw) with
  | none => .error .noSuchRegister
  | some r => if r = .status then .error .readOnlyRegister else .ok (.wr r (imm32Field cw))

/-- The row of `RD`, once its mask and match hold: the condition on `r` (R94). -/
def decodeRd (cw : CmdWord) : Except IllegalCause Instr :=
  match regOfIndex (rField cw) with
  | none => .error .noSuchRegister
  | some r => .ok (.rd r)

/-- A row's answer: refused for a reserved bit unless the word matches the row (R96, R102). -/
def decodeRow (mask fixed cw : CmdWord) (i : Except IllegalCause Instr) : Except IllegalCause Instr :=
  if rowMatches mask fixed cw then i else .error .reservedBit

/-- R102: read `op`; if it is none of the nine values, illegal; otherwise test that row's mask and match, and for `WR`
and `RD` the condition on `r`. Bit 32 is `p` of `UPDATE` (R92). -/
def decode (cw : CmdWord) : Except IllegalCause Instr :=
  if opField cw = 0x01 then decodeRow 0xFFFFFFF000000000 0x0100000000000000 cw (decodeWr cw)
  else if opField cw = 0x02 then decodeRow 0xFFFFFFF0FFFFFFFF 0x0200000000000000 cw (decodeRd cw)
  else if opField cw = 0x10 then decodeRow 0xFFFFFFFFFFFFFFFF 0x1000000000000000 cw (.ok .tbuild)
  else if opField cw = 0x11 then decodeRow 0xFFFFF800FFFFFFFF 0x1100000000000000 cw (.ok (.trd (kField cw) (nField cw)))
  else if opField cw = 0x20 then decodeRow 0xFFFFFFFFFFFFFF00 0x2000000000000000 cw (.ok (.stepb (imm8Field cw)))
  else if opField cw = 0x21 then decodeRow 0xFFFFFFFF00000000 0x2100000000000000 cw (.ok (.stepw (imm32Field cw)))
  else if opField cw = 0x30 then
    decodeRow 0xFFFFFFFEFFFFFFFF 0x3000000000000000 cw (.ok (if cw.getLsbD 32 then .update else .updateNb))
  else if opField cw = 0x40 then decodeRow 0xFFFFFFFFFFFFFFFF 0x4000000000000000 cw (.ok .comb32)
  else if opField cw = 0x41 then decodeRow 0xFFFFFFFFFFFFFFFF 0x4100000000000000 cw (.ok .comb64)
  else .error .undefinedOpcode

/-- The instruction in a word given as a number with its bits as spec/opcode_table.json numbers them. Every row is one
64-bit command word, so bit 0 of the number is bit 0 of `CW`; bits above `nbits` are 0, and bits from 64 up belong to
no command word (log 18). -/
def decodeTableWord (nbits w : Nat) : Option Instr :=
  match decode (BitVec.ofNat 64 (w % 2 ^ nbits)) with
  | .ok i => some i
  | .error _ => none

/-- The index of a register (R21). -/
def regIndex : Reg → BitVec 4
  | .crc => 0
  | .crcb => 1
  | .addr => 2
  | .len => 3
  | .lenh => 4
  | .acc => 5
  | .ctrl => 6
  | .status => 7

/-- A word put together from its three fields, `{op, fn, imm32}` (R91). -/
def cmdWord (op : BitVec 8) (fn : BitVec 24) (imm32 : Word) : CmdWord := op ++ fn ++ imm32

/-- The word of a command, by the format of its row (R92, R94): RW, RR, N, T, B, W and U. -/
def encode : Instr → CmdWord
  | .wr r d => cmdWord 0x01 ((regIndex r).setWidth 24) d
  | .rd r => cmdWord 0x02 ((regIndex r).setWidth 24) 0
  | .tbuild => cmdWord 0x10 0 0
  | .trd k n => cmdWord 0x11 ((k ++ n).setWidth 24) 0
  | .stepb imm8 => cmdWord 0x20 0 (imm8.setWidth 32)
  | .stepw w => cmdWord 0x21 0 w
  | .update => cmdWord 0x30 1 0
  | .updateNb => cmdWord 0x30 0 0
  | .comb32 => cmdWord 0x40 0 0
  | .comb64 => cmdWord 0x41 0 0

end Sys2Proof
end

