-- ==== Sys2Proof/Machine/Bits.lean ====
section
/-!
DEFINITION. Byte order: the operator `bswap` and the packing of four stream bytes into a word (R11 in 00_scope.md, R62
in 20_memory.md, R160 in 43_word_folding.md). Decided here once, for memory reads and for the operand of STEPW.
-/

namespace Sys2Proof.Machine

/-- `bswap(v)` = `{v[7:0], v[15:8], v[23:16], v[31:24]}` (R11). -/
def bswap (v : Word) : Word :=
  v.extractLsb' 0 8 ++ v.extractLsb' 8 8 ++ v.extractLsb' 16 8 ++ v.extractLsb' 24 8

/-- The word that holds the stream bytes `b0` to `b3`: `{b3, b2, b1, b0}` little-endian, `{b0, b1, b2, b3}` big-endian
(R62, R160). -/
def packWord (bigEndian : Bool) (b0 b1 b2 b3 : Byte) : Word :=
  if bigEndian then b0 ++ b1 ++ b2 ++ b3 else b3 ++ b2 ++ b1 ++ b0

/-- The four bytes of a word in stream order (R160). -/
def streamBytes (bigEndian : Bool) (w : Word) : List Byte :=
  if bigEndian then [w.extractLsb' 24 8, w.extractLsb' 16 8, w.extractLsb' 8 8, w.extractLsb' 0 8]
  else [w.extractLsb' 0 8, w.extractLsb' 8 8, w.extractLsb' 16 8, w.extractLsb' 24 8]

end Sys2Proof.Machine
end

