-- ==== Sys2Proof/Machine/Memory.lean ====
section
/-!
DEFINITION. The data memory: 2^32 bytes (R61 in 20_memory.md), held as the list of the bytes that are not zero, in
rising order of address. A key is a plain number below 2^32, reached from a 32-bit address.
-/

namespace Sys2Proof.Machine

/-- The bytes that differ from what an unlisted address reads as. -/
abbrev Memory := List Host.Cell

/-- What an unlisted address reads as: DESIGN CHOICE, 0 (log 3). Every assignment of bytes to the 2^32 addresses is a
memory in the canonical form, whatever this byte is. -/
def Memory.unlisted : Byte := 0

/-- The byte at a key. -/
def Memory.readKey : Memory → Nat → Byte
  | [], _ => Memory.unlisted
  | (k, b) :: m, a => if a = k then b else Memory.readKey m a

/-- `MemRead(a, 1)` = `Mem[a]`: every address answers a byte (R62, R68). -/
def Memory.read (m : Memory) (a : Word) : Byte := Memory.readKey m a.toNat

/-- `MemRead(a, 4)`, the four bytes from `a` on in the order of the strap (R62). Used at multiples of 4 only (R64). -/
def Memory.read4 (bigEndian : Bool) (m : Memory) (a : Word) : Word :=
  packWord bigEndian (m.read a) (m.read (a + 1)) (m.read (a + 2)) (m.read (a + 3))

/-- A cell in front of a memory, left out where it holds what an unlisted address reads as. -/
def Memory.cons (k : Nat) (b : Byte) (m : Memory) : Memory := if b = Memory.unlisted then m else (k, b) :: m

/-- A byte stored at a key, keeping the canonical form. -/
def Memory.writeKey : Memory → Nat → Byte → Memory
  | [], a, b => Memory.cons a b []
  | (k, c) :: m, a, b =>
    if a < k then Memory.cons a b ((k, c) :: m)
    else if a = k then Memory.cons a b m
    else (k, c) :: Memory.writeKey m a b

/-- The host's store of one byte. The engine has no store (R60). -/
def Memory.write (m : Memory) (a : Word) (b : Byte) : Memory := Memory.writeKey m a.toNat b

/-- The canonical form: keys strictly rising and below 2^32, no entry equal to what an unlisted address reads as. -/
abbrev Memory.wf (m : Memory) : Prop :=
  m.Pairwise (fun p q => p.1 < q.1) ∧ ∀ c ∈ m, c.1 < 2 ^ 32 ∧ c.2 ≠ Memory.unlisted

end Sys2Proof.Machine
end

