-- ==== Sys2Proof/Config.lean ====
section
/-!
DEFINITION. What an integrator fixes (R6 in 00_scope.md) and the values the spec leaves open.

Of R6's parameters, `XLEN`, `AW`, `LW` and `CWW` are the types of Word.lean; `CLW` is the pair of commands COMB32 and
COMB64; `WORD_MODE` is 1, so that table sets 1 to 7 and STEPW exist without a test; the rest stand here.
-/

namespace Sys2Proof

/-- The two parameters that differ between integrations (R6; 93_implementation_defined.md section 2). -/
structure Config where
  /-- The level of the strap `BIG_ENDIAN` when reset is released (R8, R261). -/
  bigEndian : Bool
  /-- `TBL_EAGER`: the table is already built when reset is released (R33). -/
  tblEager : Bool
deriving DecidableEq, Repr

/-- The values of R6 for an integrator who chooses nothing: little-endian, lazy table (log 5). -/
def Config.default : Config := { bigEndian := false, tblEager := false }

/-- `POLY`, the reflected generator constant, fixed (R3, R6 in 00_scope.md). -/
def Config.poly : Word := 0xEDB88320#32

/-- `VEC_CAP` = 0: this hardware has no vectorized strategy (R35 in 10_state.md, R190 in 45_vectorized_strategy.md;
log 15). -/
def Config.vecCap : Bool := false

/-- The hidden storage that no command reads out (R43, R44 in 10_state.md). -/
structure Scratch where
  /-- `MAT_E` (R43) -/
  matE : BitMatrix
  /-- `MAT_O` (R43) -/
  matO : BitMatrix
  /-- `PTR`, the update sequencer's current address (R44) -/
  ptr : Word
  /-- `REM`, the update sequencer's remaining count (R44) -/
  rem : Word
  /-- the combiner's shifting copy of the length (R44) -/
  lenCopy : BitVec 64
deriving DecidableEq, Repr, Inhabited

/-- What the hidden storage holds after a command that used it, or after a reset: unspecified (R43, R48;
93_implementation_defined.md U2), so a free value, one for each number (log 7). -/
opaque Config.freeScratch : Nat → Scratch

end Sys2Proof
end

