-- ==== Sys2Proof/Machine/Table.lean ====
section
/-!
DEFINITION. The contents of the lookup table, and reading one entry (41_table_generator.md, R130 to R133).
-/

namespace Sys2Proof.Machine

/-- `crc_bit_step(c)`: one step of the polynomial division, least significant bit first (R130). -/
def crcBitStep (c : Word) : Word := if c.getLsbD 0 then (c >>> 1) ^^^ Config.poly else c >>> 1

/-- `j` bit steps in a row. -/
def bitSteps : Nat → Word → Word
  | 0, c => c
  | j + 1, c => bitSteps j (crcBitStep c)

/-- `TBL[0][n]`: eight bit steps from `zext_32(n)` (R130). -/
def tableSet0 (n : Byte) : Word := bitSteps 8 (n.setWidth 32)

/-- `TBL[k][n]` for `k` = 0 to 3: each set from the one before (R131). -/
def tableSetLow : Nat → Byte → Word
  | 0, n => tableSet0 n
  | k + 1, n => tableSet0 ((tableSetLow k n).extractLsb' 0 8) ^^^ (tableSetLow k n >>> 8)

/-- `TBL[k][n]`; sets 4 to 7 are sets 0 to 3 with their bytes reversed (R132; byte-reversed, not bit-reversed:
90_conflicts.md C1). -/
def tableValue (k : Nat) (n : Byte) : Word :=
  if k < 4 then tableSetLow k n else bswap (tableSetLow (k - 4) n)

/-- A vector from a function of the index, as a list that the kernel can walk. -/
def tabulate {α : Type} (size : Nat) (f : Fin size → α) : Vector α size :=
  ⟨(List.ofFn f).toArray, by simp⟩

/-- The table that `build_table()` writes (R133). It depends on `POLY` alone (R138). -/
def buildTable : Table := tabulate 8 fun k => tabulate 256 fun n => tableValue k.val (BitVec.ofNat 8 n.val)

/-- `TBL[k][n]`, read from a stored table (R11). -/
def lookup (t : Table) (k : BitVec 3) (n : Byte) : Word := (t[k.toNat]'k.isLt)[n.toNat]'n.isLt

end Sys2Proof.Machine
end

