-- ==== Sys2Proof/Machine/State.lean ====
section
/-!
DEFINITION. The state of the machine (10_state.md), why a step can stop, and reset (R48). Plain data. INVENTORY.md
lists every field with its rule and its reset value.
-/

namespace Sys2Proof.Machine

/-- One thing the host does at the block's interface, between commands (R20; log 2). -/
inductive HostAction where
  /-- present a command word on the command port (R90) -/
  | present (cw : CmdWord)
  /-- take the oldest response from the response port (R93) -/
  | takeResponse
  /-- store a byte to the data memory, which the host owns (R20, R60) -/
  | store (a : Word) (b : Byte)
  /-- assert reset and release it with the strap at this level (R260, R261) -/
  | reset (bigEndian : Bool)
deriving DecidableEq, Repr

/-- No constructor, so nobody raises a fault: every input maps to a defined output (R230 in 60_exceptions.md), and an
illegal word is a next state with `STATUS.ILL` set (R231; log 14). -/
inductive Fault where
deriving DecidableEq, Repr

/-- Why the model has no meaning for an instruction. -/
inductive Refusal where
  /-- Raised by an arm of `exec` whose instruction has no meaning yet; safe. No arm raises it now. -/
  | notModelled (mnemonic : String)
deriving DecidableEq, Repr

/-- All the state the spec gives the machine, what the host holds for it, and the model's own two fields. -/
structure State where
  /-- `CRC` (R22) -/
  crc : Word
  /-- `CRCB` (R23) -/
  crcb : Word
  /-- `ADDR` (R24) -/
  addr : Word
  /-- `LEN` (R25) -/
  len : Word
  /-- `LENH` (R26) -/
  lenh : Word
  /-- `ACC` (R27) -/
  acc : Word
  /-- `CTRL.WORD_EN`; the other bits of `CTRL` hold nothing (R30) -/
  wordEn : Bool
  /-- `STATUS.ILL` (R32) -/
  ill : Bool
  /-- `STATUS.BE`, the strap as sampled at the last release of reset (R34, R261) -/
  be : Bool
  /-- `TBL_EAGER`, a constant of the instance (R261), read by a later reset -/
  tblEager : Bool
  /-- `TBL`, absent until built (R40, R42); `STATUS.TV` is whether it is there (R31; log 6) -/
  tbl : Option Table
  /-- responses the host has not yet taken, oldest first (R47; log 9) -/
  responses : List Word
  /-- `BUSY` (R45; log 8) -/
  busy : Bool
  /-- the hidden storage (R43, R44; log 7) -/
  scratch : Scratch
  /-- the data memory (R61; log 3) -/
  mem : Memory
  /-- what the host does next, first in front (R49; log 2) -/
  inputs : List HostAction
  /-- the model's own: the number of the next free value (log 7) -/
  freeIdx : Nat
deriving DecidableEq, Repr

/-- `TBL` right after reset: unspecified, so absent, unless the instance builds it eagerly (R33, R48). -/
def resetTable (tblEager : Bool) : Option Table := if tblEager then some buildTable else none

/-- The hidden storage at power-on: the spec gives no value; DESIGN CHOICE, all zero (log 7). -/
def resetScratch : Scratch :=
  { matE := tabulate 32 fun _ => 0, matO := tabulate 32 fun _ => 0, ptr := 0, rem := 0, lenCopy := 0 }

/-- The machine right after power-on reset, for any instance (R48), with no host action pending. -/
def State.resetWith (cfg : Config) : State where
  crc := 0
  crcb := 0
  addr := 0
  len := 0
  lenh := 0
  acc := 0
  wordEn := false
  ill := false
  be := cfg.bigEndian
  tblEager := cfg.tblEager
  tbl := resetTable cfg.tblEager
  responses := []
  busy := false
  scratch := resetScratch
  mem := []
  inputs := []
  freeIdx := 0

/-- The machine right after reset, for the default values of R6 (log 5). -/
def State.reset : State := State.resetWith Config.default

end Sys2Proof.Machine
end

