-- ==== Sys2Proof/Machine/Flags.lean ====
section
/-!
DEFINITION. The two registers made of single bits, `STATUS` and `CTRL` (R30, R31 in 10_state.md; R122, R123 in
40_register_access.md). There are no condition codes (R29).
-/

namespace Sys2Proof.Machine

/-- `STATUS.TV`: the table is built (R31, R33). -/
def statusTv (s : State) : Bool := s.tbl.isSome

/-- The value of `STATUS`: `{28 zero bits, VEC, ILL, BE, TV}` (R123). -/
def statusWord (s : State) : Word :=
  0#28 ++ BitVec.ofBool Config.vecCap ++ BitVec.ofBool s.ill ++ BitVec.ofBool s.be ++ BitVec.ofBool (statusTv s)

/-- The value of `CTRL`: `WORD_EN` in bit 0, zeros above (R30). -/
def ctrlWord (s : State) : Word := 0#31 ++ BitVec.ofBool s.wordEn

/-- What a write of `d` keeps in `CTRL.WORD_EN`: bit 0 (R122). -/
def wordEnOf (d : Word) : Bool := d.getLsbD 0

end Sys2Proof.Machine
end

