-- ==== Sys2Proof/Machine/Operands.lean ====
section
/-!
DEFINITION. Operands that a command takes from registers in more than one reading (R25, R26 in 10_state.md; R204, R208,
R209 in 46_combine.md). Operands from the command word are fields that the decoder takes out (R95).
-/

namespace Sys2Proof.Machine

/-- `LEN` as `UPDATE` reads it: an unsigned count of bytes (R25). -/
def updateLength (s : State) : Nat := s.len.toNat

/-- `LEN` as `COMB32` reads it: `sext_64(LEN)` (R208). -/
def comb32Length (s : State) : BitVec 64 := s.len.signExtend 64

/-- `{LENH, LEN}`, the length of `COMB64` (R209). -/
def comb64Length (s : State) : BitVec 64 := s.lenh ++ s.len

/-- `len > 0`, the one signed test of the block (R10, R204). -/
def lengthPositive (len : BitVec 64) : Bool := BitVec.slt 0 len

end Sys2Proof.Machine
end

