-- ==== Sys2Proof/Machine/Ops.lean ====
section
/-!
DEFINITION. The operations that commands share: the one exception, the response port, the registers, the table, and what
a command leaves in the hidden storage.
-/

namespace Sys2Proof.Machine

/-- `raise Illegal`, taking the block's only exception: `STATUS.ILL` becomes 1 and nothing else changes (R231 in
60_exceptions.md). Nothing is saved, no mode changes and control goes nowhere (R235); there is no return from it, and
only reset clears the bit (R32, R236). -/
def raiseIllegal (s : State) : State := { s with ill := true }

/-- `respond(v)`: one value behind the others in the response queue (R93 in 30_encoding.md). -/
def respond (v : Word) (s : State) : State := { s with responses := s.responses ++ [v] }

/-- The value a register reads as (R121). -/
def readReg : Reg → State → Word
  | .crc, s => s.crc
  | .crcb, s => s.crcb
  | .addr, s => s.addr
  | .len, s => s.len
  | .lenh, s => s.lenh
  | .acc, s => s.acc
  | .ctrl, s => ctrlWord s
  | .status, s => statusWord s

/-- A command's write of a register (R120): `CTRL` keeps bit 0 alone, and a write to `STATUS` is illegal. -/
def writeReg : Reg → Word → State → State
  | .crc, v, s => { s with crc := v }
  | .crcb, v, s => { s with crcb := v }
  | .addr, v, s => { s with addr := v }
  | .len, v, s => { s with len := v }
  | .lenh, v, s => { s with lenh := v }
  | .acc, v, s => { s with acc := v }
  | .ctrl, v, s => { s with wordEn := wordEnOf v }
  | .status, _, s => raiseIllegal s

/-- The table that a reader sees: every reader runs `ensure_table()` first, so it is the stored table, or, where none is
built yet, the one that `build_table()` writes (R42, R133, R134). -/
def currentTable (s : State) : Table :=
  match s.tbl with
  | some t => t
  | none => buildTable

/-- `ensure_table()`: builds the table if `STATUS.TV` = 0, else does nothing (R134 in 41_table_generator.md). -/
def ensureTable (s : State) : State := { s with tbl := some (currentTable s) }

/-- After an update that consumed bytes, `PTR` and `REM` hold unspecified values (R44; log 7). -/
def spoilSequencer (s : State) : State :=
  { s with
    scratch :=
      { s.scratch with ptr := (Config.freeScratch s.freeIdx).ptr, rem := (Config.freeScratch s.freeIdx).rem }
    freeIdx := s.freeIdx + 1 }

/-- After a combine of positive length, `MAT_E`, `MAT_O` and the length copy hold unspecified values (R43, R44;
log 7). -/
def spoilCombiner (s : State) : State :=
  { s with
    scratch :=
      { s.scratch with
        matE := (Config.freeScratch s.freeIdx).matE
        matO := (Config.freeScratch s.freeIdx).matO
        lenCopy := (Config.freeScratch s.freeIdx).lenCopy }
    freeIdx := s.freeIdx + 1 }

end Sys2Proof.Machine
end

