-- ==== Sys2Proof/Machine/Combiner.lean ====
section
/-!
DEFINITION. The combiner: matrices over GF(2) and the meanings of `COMB32` and `COMB64` (46_combine.md).
-/

namespace Sys2Proof.Machine

/-- `gf2_times(M, v)`: the exclusive-or of the rows that the bits of `v` select (R202; the orientation of
90_conflicts.md C2). -/
def gf2Times (m : BitMatrix) (v : Word) : Word :=
  (List.finRange 32).foldl (fun sum i => if v[i] then sum ^^^ m[i] else sum) 0

/-- `gf2_square(M)[n]` = `gf2_times(M, M[n])` (R203). -/
def gf2Square (m : BitMatrix) : BitMatrix := tabulate 32 fun n => gf2Times m m[n]

/-- `Z1`, one zero bit: row 0 is `POLY`, row `n` is `1 << (n - 1)` (R205). -/
def zeroBitMatrix : BitMatrix := tabulate 32 fun n => if n.val = 0 then Config.poly else 1#32 <<< (n.val - 1)

/-- `Z(8)`, one zero byte: `Z1` squared three times (R205, R206). -/
def zeroByteMatrix : BitMatrix := gf2Square (gf2Square (gf2Square zeroBitMatrix))

/-- The loop of R206 on the bits of `len` that are left, least significant first, with the matrix `m` of the current bit:
apply `m` where the bit is 1, stop when no set bit is left, else square `m` and go on (90_conflicts.md C3). The first
argument bounds the number of bits; a positive length has at most 63 (R212; log 16). -/
def combineLoop : Nat → BitVec 64 → BitMatrix → Word → Word
  | 0, _, _, a => a
  | bits + 1, len, m, a =>
    let a' := if len.getLsbD 0 then gf2Times m a else a
    if len >>> 1 = 0 then a' else combineLoop bits (len >>> 1) (gf2Square m) a'

/-- The running value of R206 after the loop, from `crcA` and a positive length. -/
def combineShift (len : BitVec 64) (crcA : Word) : Word := combineLoop 64 len zeroByteMatrix crcA

/-- The core both commands share: nothing is written unless the length is positive (R204); else `CRC` becomes the shifted
`CRC` exclusive-or `CRCB` (R206, R207). -/
def combine (len : BitVec 64) (s : State) : State :=
  if lengthPositive len then spoilCombiner (writeReg .crc (combineShift len s.crc ^^^ s.crcb) s) else s

/-- `COMB32`: the length is `LEN`, sign-extended (R208). -/
def execComb32 (s : State) : Host.Outcome State Fault Refusal := .next (combine (comb32Length s) s)

/-- `COMB64`: the length is `{LENH, LEN}` (R209). -/
def execComb64 (s : State) : Host.Outcome State Fault Refusal := .next (combine (comb64Length s) s)

end Sys2Proof.Machine
end

