-- ==== Sys2Proof/Machine/RegisterAccess.lean ====
section
/-!
DEFINITION. The meanings of `WR` and `RD` (40_register_access.md).
-/

namespace Sys2Proof.Machine

/-- `WR r, d` (R120, R122). The term `WR STATUS`, which no word encodes, raises Illegal as R120 writes it. -/
def execWr (r : Reg) (d : Word) (s : State) : Host.Outcome State Fault Refusal := .next (writeReg r d s)

/-- `RD r` (R121, R123): one response, no other change. -/
def execRd (r : Reg) (s : State) : Host.Outcome State Fault Refusal := .next (respond (readReg r s) s)

end Sys2Proof.Machine
end

