-- ==== Sys2Proof/Machine/ByteUpdate.lean ====
section
/-!
DEFINITION. The byte update engine: the byte step and the meaning of `STEPB` (42_byte_update.md).
-/

namespace Sys2Proof.Machine

/-- `byte_step(c, b)` = `TBL[0][(c ^ zext_32(b)) & 0xFF] ^ (c >> 8)` (R150). -/
def byteStep (t : Table) (c : Word) (b : Byte) : Word :=
  lookup t 0 ((c ^^^ b.setWidth 32).extractLsb' 0 8) ^^^ (c >>> 8)

/-- `STEPB imm8`: `ensure_table()`, then one byte step on `ACC` (R151). -/
def execStepb (imm8 : Byte) (s : State) : Host.Outcome State Fault Refusal :=
  .next (writeReg .acc (byteStep (currentTable s) s.acc imm8) (ensureTable s))

end Sys2Proof.Machine
end

