-- ==== Sys2Proof/Machine/WordFolding.lean ====
section
/-!
DEFINITION. The word folding unit: the word step and the meaning of `STEPW` (43_word_folding.md).
-/

namespace Sys2Proof.Machine

/-- `word_step_le(c, w)` (R161): set 3 serves the byte that is first in the stream. -/
def wordStepLe (t : Table) (c w : Word) : Word :=
  let x := c ^^^ w
  lookup t 3 (x.extractLsb' 0 8) ^^^ lookup t 2 (x.extractLsb' 8 8) ^^^ lookup t 1 (x.extractLsb' 16 8) ^^^
    lookup t 0 (x.extractLsb' 24 8)

/-- `word_step_be(c, w)` (R162): sets 4 to 7, on the byte-swapped register. -/
def wordStepBe (t : Table) (c w : Word) : Word :=
  let x := bswap c ^^^ w
  bswap (lookup t 4 (x.extractLsb' 0 8) ^^^ lookup t 5 (x.extractLsb' 8 8) ^^^ lookup t 6 (x.extractLsb' 16 8) ^^^
    lookup t 7 (x.extractLsb' 24 8))

/-- `word_step`: by the strap (R164). -/
def wordStep (bigEndian : Bool) (t : Table) (c w : Word) : Word :=
  if bigEndian then wordStepBe t c w else wordStepLe t c w

/-- `STEPW w`: `ensure_table()`, then one word step on `ACC` (R163). -/
def execStepw (w : Word) (s : State) : Host.Outcome State Fault Refusal :=
  .next (writeReg .acc (wordStep s.be (currentTable s) s.acc w) (ensureTable s))

end Sys2Proof.Machine
end

