-- ==== Sys2Proof/Machine/StreamingUpdate.lean ====
section
/-!
DEFINITION. The streaming update: which reads `UPDATE` makes of the data memory (R66 in 20_memory.md), how each is folded
into the register, and the meanings of `UPDATE` and `UPDATE.NB` (44_streaming_update.md, R170). The loops of R170 are
written as the list of reads they make, in order; the fold over that list is what they compute (log 17).
-/

namespace Sys2Proof.Machine

/-- One read of the data memory: one byte, or four bytes at a multiple of 4 (R64). -/
inductive Access where
  /-- `MemRead(a, 1)` -/
  | byte (a : Word)
  /-- `MemRead(a, 4)` -/
  | word (a : Word)
deriving DecidableEq, Repr

/-- `n` one-byte reads from `a` on, addresses modulo 2^32 (R67, R173). -/
def byteReads : Nat → Word → List Access
  | 0, _ => []
  | n + 1, a => .byte a :: byteReads n (a + 1)

/-- `n` four-byte reads from `a` on (R174, body). -/
def wordReads : Nat → Word → List Access
  | 0, _ => []
  | n + 1, a => .word a :: wordReads n (a + 4)

/-- From an aligned address: four-byte reads while at least 4 bytes remain, then one-byte reads (R174, body and tail). -/
def alignedReads (n : Nat) (a : Word) : List Access :=
  wordReads (n / 4) a ++ byteReads (n % 4) (a + BitVec.ofNat 32 (n / 4 * 4))

/-- The word-wise strategy: one-byte reads while bytes remain and the address is no multiple of 4, then the aligned
rest (R174). -/
def wordModeReads : Nat → Word → List Access
  | 0, _ => []
  | n + 1, a =>
    if a.extractLsb' 0 2 = 0 then alignedReads (n + 1) a else .byte a :: wordModeReads n (a + 1)

/-- The reads of one `UPDATE`, in order (R66): all of one byte when `WORD_EN` = 0 (R173), word-wise when it is 1. -/
def updateReads (wordEn : Bool) (n : Nat) (a : Word) : List Access :=
  if wordEn then wordModeReads n a else byteReads n a

/-- What one read does to the running register: a byte step or a word step (R170). -/
def foldAccess (bigEndian : Bool) (t : Table) (m : Memory) (c : Word) : Access → Word
  | .byte a => byteStep t c (m.read a)
  | .word a => wordStep bigEndian t c (m.read4 bigEndian a)

/-- The internal register after the whole buffer, from the complement of `CRC` (R170, R172). -/
def foldBuffer (s : State) : Word :=
  (updateReads s.wordEn (updateLength s) s.addr).foldl (foldAccess s.be (currentTable s) s.mem) (~~~s.crc)

/-- The reset of an absent or empty buffer: `CRC` becomes 0 and nothing else happens (R171). -/
def clearCrc (s : State) : State := writeReg .crc 0 s

/-- A buffer of at least one byte: `ensure_table()`, fold, `ACC` gets the internal value and `CRC` its complement
(R170, R172, R177). -/
def updateBuffer (s : State) : State :=
  spoilSequencer (writeReg .crc (~~~foldBuffer s) (writeReg .acc (foldBuffer s) (ensureTable s)))

/-- `UPDATE`, `p` = 1 (R170): an empty buffer resets `CRC` (R171; 90_conflicts.md C4). -/
def execUpdate (s : State) : Host.Outcome State Fault Refusal :=
  .next (if s.len = 0 then clearCrc s else updateBuffer s)

/-- `UPDATE.NB`, `p` = 0 (R170, R171). -/
def execUpdateNb (s : State) : Host.Outcome State Fault Refusal := .next (clearCrc s)

end Sys2Proof.Machine
end

