-- ==== Sys2Proof/Machine/TableGenerator.lean ====
section
/-!
DEFINITION. The meanings of `TBUILD` and `TRD` (41_table_generator.md).
-/

namespace Sys2Proof.Machine

/-- `TBUILD`: `ensure_table()` (R136). -/
def execTbuild (s : State) : Host.Outcome State Fault Refusal := .next (ensureTable s)

/-- `TRD k, n`: `ensure_table()`, then one response with the entry (R137). -/
def execTrd (k : BitVec 3) (n : Byte) (s : State) : Host.Outcome State Fault Refusal :=
  .next (respond (lookup (currentTable s) k n) (ensureTable s))

end Sys2Proof.Machine
end

