-- ==== Sys2Proof/Machine/Dispatch.lean ====
section
/-!
DEFINITION. From a command to its meaning: one arm for each constructor of `Instr`.
-/

namespace Sys2Proof.Machine

/-- The effect of one command (R12 in 00_scope.md). -/
def exec (i : Instr) (s : State) : Host.Outcome State Fault Refusal :=
  match i with
  | .wr r d => Sys2Proof.Machine.execWr r d s
  | .rd r => Sys2Proof.Machine.execRd r s
  | .tbuild => Sys2Proof.Machine.execTbuild s
  | .trd k n => Sys2Proof.Machine.execTrd k n s
  | .stepb imm8 => Sys2Proof.Machine.execStepb imm8 s
  | .stepw w => Sys2Proof.Machine.execStepw w s
  | .update => Sys2Proof.Machine.execUpdate s
  | .updateNb => Sys2Proof.Machine.execUpdateNb s
  | .comb32 => Sys2Proof.Machine.execComb32 s
  | .comb64 => Sys2Proof.Machine.execComb64 s

end Sys2Proof.Machine
end

