-- ==== Sys2Proof/Machine/Ports.lean ====
section
/-!
DEFINITION. The block's interface to the host: accepting and running a command word, giving a response, the host's stores
and reset (30_encoding.md section 1, 70_reset_and_hazards.md section 1). `rest` is what the host does afterwards.
-/

namespace Sys2Proof.Machine

/-- A word is accepted: a command is in progress, and the host's next action waits (R45, R90). -/
def acceptWord (rest : List HostAction) (s : State) : State := { s with busy := true, inputs := rest }

/-- The command in progress has completed: the port is ready again (R45, R90). -/
def finishCommand (s : State) : State := { s with busy := false }

/-- Completion of whatever the command answered. -/
def finishOutcome : Host.Outcome State Fault Refusal → Host.Outcome State Fault Refusal
  | .next s => .next (finishCommand s)
  | .fault f => .fault f
  | .refused r => .refused r

/-- An accepted word: its command, or the exception where it is none (R97, R102). -/
def runWord (cw : CmdWord) (s : State) : Host.Outcome State Fault Refusal :=
  match decode cw with
  | .ok i => exec i s
  | .error _ => .next (raiseIllegal s)

/-- The host presents a word. The engine is ready exactly when no command is in progress; else the host waits (R90). The
command runs to completion before anything else happens (R12, R268; log 1). -/
def presentWord (cw : CmdWord) (rest : List HostAction) (s : State) : Host.Outcome State Fault Refusal :=
  if s.busy then .next s else finishOutcome (runWord cw (acceptWord rest s))

/-- The host takes the oldest response; where there is none it waits (R47, R236, R266; log 10). -/
def takeResponse (rest : List HostAction) (s : State) : State :=
  match s.responses with
  | [] => s
  | _ :: later => { s with responses := later, inputs := rest }

/-- The host stores a byte between commands (R60, R71; log 11). -/
def hostStore (a : Word) (b : Byte) (rest : List HostAction) (s : State) : State :=
  { s with mem := s.mem.write a b, inputs := rest }

/-- Reset asserted and released with the strap at a level (R260 to R262): every piece of the engine's state takes its
value of R48, the hidden storage an unspecified one. The memory and what the host does next are the host's (log 12). -/
def hostReset (bigEndian : Bool) (rest : List HostAction) (s : State) : State :=
  { State.resetWith { bigEndian := bigEndian, tblEager := s.tblEager } with
    scratch := Config.freeScratch s.freeIdx
    mem := s.mem
    inputs := rest
    freeIdx := s.freeIdx + 1 }

/-- The host's next action; with none, the engine is idle and nothing changes (R12, R242). -/
def hostAction (s : State) : Host.Outcome State Fault Refusal :=
  match s.inputs with
  | [] => .next s
  | .present cw :: rest => presentWord cw rest s
  | .takeResponse :: rest => .next (takeResponse rest s)
  | .store a b :: rest => .next (hostStore a b rest s)
  | .reset bigEndian :: rest => .next (hostReset bigEndian rest s)

/-- A command word in front of what the host does next, at a port that is ready. -/
def presentNext (cw : CmdWord) (s : State) : State := { s with busy := false, inputs := .present cw :: s.inputs }

end Sys2Proof.Machine
end

