-- ==== Sys2Proof/Machine/Step.lean ====
section
/-!
DEFINITION. One step: the host's next action, and, where that is a command word, the whole command (R12 in 00_scope.md;
log 1). The block fetches nothing from memory (R28, R75), so a program is what the host presents.
-/

namespace Sys2Proof.Machine

/-- One step of the machine. -/
def step (s : State) : Host.Outcome State Fault Refusal := hostAction s

/-- The state in which the host presents next the command word whose bits are the number `w` (log 2). -/
def State.withFetchWord (s : State) (nbits w : Nat) : State := presentNext (BitVec.ofNat 64 (w % 2 ^ nbits)) s

end Sys2Proof.Machine
end

