-- ==== Sys2Proof/Safety.lean ====
section
/-!
DEFINITION. What a state that a run can reach looks like, and what a clean run is, in the terms the statements use.
-/

namespace Sys2Proof.Machine

/-- `TBL` is absent, or holds exactly what `build_table()` writes (R33, R41, R42 in 10_state.md). -/
def TableOk (s : State) : Prop := s.tbl = none ∨ s.tbl = some buildTable

/-- What holds between any two steps: the memory is in its canonical form, the table is absent or right (and there from
reset on where the instance builds it eagerly, R33), and no command is in progress (R45). -/
structure State.Inv (s : State) : Prop where
  memWf : s.mem.wf
  tableOk : TableOk s
  eagerBuilt : s.tblEager = true → s.tbl.isSome = true
  idle : s.busy = false

/-- No illegal word has been seen since reset: the premise `STATUS.ILL` = 0 (92_eei_decisions.md D16). -/
def State.Clean (s : State) : Prop := s.ill = false

end Sys2Proof.Machine
end

