-- ==== Sys2Proof/Certificates/Slice0/Obligations.lean ====
section
/-!
DEFINITION. The statements for the provers. The definitions before them say, in the spec's terms, what the statements
compare the machine with.
-/

namespace Sys2Proof.Machine

/-- The nine opcodes (R94). -/
def definedOps : List (BitVec 8) := [0x01, 0x02, 0x10, 0x11, 0x20, 0x21, 0x30, 0x40, 0x41]

/-- The bits of a command word that its opcode's format says must be zero (R92): RW 55:36; RR 55:36 and 31:0; N 55:0;
T 55:43 and 31:0; B 55:32 and 31:8; W 55:32; U 55:33 and 31:0. -/
def mustBeZero (op : BitVec 8) : CmdWord :=
  if op = 0x01 then 0x00FFFFF000000000
  else if op = 0x02 then 0x00FFFFF0FFFFFFFF
  else if op = 0x11 then 0x00FFF800FFFFFFFF
  else if op = 0x20 then 0x00FFFFFFFFFFFF00
  else if op = 0x21 then 0x00FFFFFF00000000
  else if op = 0x30 then 0x00FFFFFEFFFFFFFF
  else 0x00FFFFFFFFFFFFFF

/-- The four kinds of illegal command word, in R97's order a to d. -/
def IllegalWord (cw : CmdWord) : Prop :=
  opField cw ∉ definedOps ∨
    (opField cw ∈ definedOps ∧ cw &&& mustBeZero (opField cw) ≠ 0) ∨
    ((opField cw = 0x01 ∨ opField cw = 0x02) ∧ 8 ≤ (rField cw).toNat) ∨
    (opField cw = 0x01 ∧ (rField cw).toNat = 7)

/-- The commands that run `ensure_table()` (R139). -/
def UsesTable (i : Instr) (s : State) : Prop :=
  i = .tbuild ∨ (∃ k n, i = .trd k n) ∨ (∃ b, i = .stepb b) ∨ (∃ w, i = .stepw w) ∨ (i = .update ∧ s.len ≠ 0)

/-- `n` bytes of memory from `a` on, in stream order, addresses modulo 2^32 (R61, R67). -/
def bufferBytes (m : Memory) (a : Word) (n : Nat) : List Byte :=
  (List.range n).map fun i => m.read (a + BitVec.ofNat 32 i)

/-- The addresses of the bytes one read covers, in stream order (R62). -/
def accessBytes : Access → List Word
  | .byte a => [a]
  | .word a => [a, a + 1, a + 2, a + 3]

/-- The byte folded in bit by bit, without the table (R152). -/
def serialStep (c : Word) (b : Byte) : Word := bitSteps 8 (c ^^^ b.setWidth 32)

/-- `crc(S)`, the CRC-32 of a byte string, bit by bit (R210; `crc("")` = 0). -/
def crcOf (bytes : List Byte) : Word := ~~~(bytes.foldl serialStep 0xFFFFFFFF)

/-- The next action of the host is no reset. -/
def NoReset (s : State) : Prop := ∀ be rest, s.inputs ≠ .reset be :: rest

end Sys2Proof.Machine

open Sys2Proof Sys2Proof.Machine

/-! Encoding (30_encoding.md) -/

/-- R92, R94, R95: the decoder reads back every legal command from its own word, with all its operands. -/
def Obligations.DecodeOfEncodedCommand : Prop :=
  ∀ i : Instr, i.wf = true → decode (encode i) = .ok i

/-- R102 with R92 and R94: a word that decodes is the word of the command it decodes to, so no two words share a meaning
and no bit of a word is ignored. -/
def Obligations.DecodedWordIsItsEncoding : Prop :=
  ∀ (cw : CmdWord) (i : Instr), decode cw = .ok i → i.wf = true ∧ encode i = cw

/-- R97: the illegal words are exactly those of four kinds, and such a word does `raise Illegal`: it sets `STATUS.ILL`,
changes nothing else, and is then complete. -/
def Obligations.IllegalWordsSetOnlyIll : Prop :=
  ∀ cw : CmdWord,
    ((∃ c, decode cw = .error c) ↔ IllegalWord cw) ∧
      ∀ (s : State) (rest : List HostAction),
        IllegalWord cw → s.busy = false → s.inputs = .present cw :: rest →
          step s = .next { s with ill := true, busy := false, inputs := rest }

/-- Words written out from the formats of R92, one or two for each family, and what they decode to. -/
def Obligations.SampleWordsDecode : Prop :=
  decode 0x0100000200001001 = .ok (.wr .addr 0x1001) ∧
    decode 0x0200000700000000 = .ok (.rd .status) ∧
    decode 0x1000000000000000 = .ok .tbuild ∧
    decode 0x110007FF00000000 = .ok (.trd 7 0xFF) ∧
    decode 0x2000000000000031 = .ok (.stepb 0x31) ∧
    decode 0x2100000034333231 = .ok (.stepw 0x34333231) ∧
    decode 0x3000000100000000 = .ok .update ∧
    decode 0x3000000000000000 = .ok .updateNb ∧
    decode 0x4000000000000000 = .ok .comb32 ∧
    decode 0x4100000000000000 = .ok .comb64 ∧
    decode 0x0100000700000000 = .error .readOnlyRegister

/-! The command port and the step -/

/-- R12, R90: when the port is ready and the word the host presents decodes to `i`, a step is the effect of `i` on the
state in which the word has been taken off the host's list and `BUSY` is set, and `BUSY` is clear again after it. -/
def Obligations.StepRunsDecodedCommand : Prop :=
  ∀ (s : State) (cw : CmdWord) (rest : List HostAction) (i : Instr),
    s.busy = false → s.inputs = .present cw :: rest → decode cw = .ok i →
      ∃ t, exec i { s with busy := true, inputs := rest } = .next t ∧ step s = .next { t with busy := false }

/-- The model's own (log 2): a word placed by `withFetchWord` is the word the very next step runs. -/
def Obligations.PlacedWordRunsNext : Prop :=
  ∀ (s : State) (nbits w : Nat) (i : Instr),
    decodeTableWord nbits w = some i →
      ∃ t, exec i { s with busy := true } = .next t ∧ step (s.withFetchWord nbits w) = .next { t with busy := false }

/-- R90: a word is accepted exactly when `BUSY` is false: then it is off the host's list after the step and `BUSY` is
false again; else it is not accepted. That the whole step then changes nothing, the host waiting with its word, is the
model's reading of a state that no run reaches (DEDUCED, log 8). -/
def Obligations.WordAcceptedExactlyWhenNotBusy : Prop :=
  ∀ (s : State) (cw : CmdWord) (rest : List HostAction), s.inputs = .present cw :: rest →
    (s.busy = false → ∃ t, step s = .next t ∧ t.inputs = rest ∧ t.busy = false) ∧
      (s.busy = true → step s = .next s)

/-- R12, R242: when the host does nothing, nothing changes. -/
def Obligations.IdleStepChangesNothing : Prop :=
  ∀ s : State, s.inputs = [] → step s = .next s

/-- R230, R231, R268: no state of the registers, the table, the memory or the host's list makes a step stop. That no step
faults or is refused is the model's reading (DEDUCED, log 14); that an `RD` or `TRD` completes however many responses wait
is the model's choice of an unbounded queue (DESIGN CHOICE, log 9; R266 lets a full one delay the command). -/
def Obligations.EveryStepAnswersANextState : Prop :=
  ∀ s : State, ∃ t, step s = .next t

/-- R93, R47: the host takes responses in the order they were produced; with none there it waits (R266; the waiting is the
model's reading, log 10). -/
def Obligations.ResponsesAreTakenInOrder : Prop :=
  ∀ (s : State) (rest : List HostAction), s.inputs = .takeResponse :: rest →
    (∀ v later, s.responses = v :: later → step s = .next { s with responses := later, inputs := rest }) ∧
      (s.responses = [] → step s = .next s)

/-- R20, R60: a store of the host changes the one byte it names and nothing of the engine (the order of stores and
commands is the model's choice, log 2). -/
def Obligations.HostStoreChangesOneByte : Prop :=
  ∀ (s : State) (a : Word) (b : Byte) (rest : List HostAction), s.Inv → s.inputs = .store a b :: rest →
    ∃ m, step s = .next { s with mem := m, inputs := rest } ∧ m.read a = b ∧
      ∀ x, x ≠ a → m.read x = s.mem.read x

/-! Reset (R48 in 10_state.md, 70_reset_and_hazards.md) -/

/-- R48: the reset value of every piece of state that the spec gives one, for every instance. -/
def Obligations.ResetValues : Prop :=
  ∀ cfg : Config,
    let s := State.resetWith cfg
    s.crc = 0 ∧ s.crcb = 0 ∧ s.addr = 0 ∧ s.len = 0 ∧ s.lenh = 0 ∧ s.acc = 0 ∧ ctrlWord s = 0 ∧ s.wordEn = false ∧
      statusTv s = cfg.tblEager ∧ s.be = cfg.bigEndian ∧ s.ill = false ∧ (statusWord s).getLsbD 3 = false ∧
      (cfg.tblEager = true → s.tbl = some buildTable) ∧ s.busy = false ∧ s.responses = []

/-- R260, R261, R262: a reset, also during a command, puts the engine's state at its reset values, with the strap
sampled at the release; the host's memory stays (log 12). -/
def Obligations.HostResetRestoresResetValues : Prop :=
  ∀ (s : State) (be : Bool) (rest : List HostAction), s.inputs = .reset be :: rest →
    ∃ scr n, step s = .next { State.resetWith { bigEndian := be, tblEager := s.tblEager } with
      scratch := scr, freeIdx := n, mem := s.mem, inputs := rest }

/-- The invariant holds after reset, for every instance (that the memory lists nothing then is the model's choice,
log 3). -/
def Obligations.ResetHasInvariant : Prop :=
  ∀ cfg : Config, (State.resetWith cfg).Inv

/-! Whole-machine rules -/

/-- R33, R41, R45, R61: every step keeps the canonical memory, the table absent or right, present where the instance
builds it eagerly, and the port ready. -/
def Obligations.EveryStepKeepsInvariant : Prop :=
  ∀ s t : State, s.Inv → step s = .next t → t.Inv

/-- R32 with R231 and R232: until reset, `STATUS.ILL` after a step is 1 exactly if it was 1 before or the step consumed
an illegal word. -/
def Obligations.IllIsStickyAndOnlyIllegalWordsSetIt : Prop :=
  ∀ s t : State, NoReset s → step s = .next t →
    (t.ill = true ↔
      s.ill = true ∨ (s.busy = false ∧ ∃ cw rest, s.inputs = .present cw :: rest ∧ IllegalWord cw))

/-- R33, R41: once built, the table stays as it is until reset, and it is never built a second time with other values. -/
def Obligations.BuiltTableNeverChanges : Prop :=
  ∀ (s t : State) (tb : Table), s.tbl = some tb → NoReset s → step s = .next t → t.tbl = some tb

/-- R60: no command writes the data memory: every byte reads as before, for a legal command and for any word. -/
def Obligations.CommandsWriteNoMemory : Prop :=
  (∀ (i : Instr) (s t : State), exec i s = .next t → ∀ a, t.mem.read a = s.mem.read a) ∧
    ∀ (s t : State) (cw : CmdWord) (rest : List HostAction),
      s.inputs = .present cw :: rest → step s = .next t → ∀ a, t.mem.read a = s.mem.read a

/-- R34, R261, R8: `TBL_EAGER` changes at no step, and `STATUS.BE` only at a reset, which sets it to the strap. -/
def Obligations.StrapHoldsUntilReset : Prop :=
  ∀ s t : State, step s = .next t →
    t.tblEager = s.tblEager ∧ (NoReset s → t.be = s.be) ∧ (∀ be rest, s.inputs = .reset be :: rest → t.be = be)

/-- R21's table, R23 to R26, R30: no command but `WR` writes `CRCB`, `ADDR`, `LEN`, `LENH` or `CTRL`; `CRC` is written by
`UPDATE`, `COMB32` and `COMB64` besides, `ACC` by `STEPB`, `STEPW` and `UPDATE` besides. -/
def Obligations.OnlyNamedCommandsWriteEachRegister : Prop :=
  ∀ (i : Instr) (s t : State), exec i s = .next t → (∀ r d, i ≠ .wr r d) →
    t.crcb = s.crcb ∧ t.addr = s.addr ∧ t.len = s.len ∧ t.lenh = s.lenh ∧ t.wordEn = s.wordEn ∧
      (i ≠ .update → i ≠ .updateNb → i ≠ .comb32 → i ≠ .comb64 → t.crc = s.crc) ∧
      (i ≠ .update → (∀ b, i ≠ .stepb b) → (∀ w, i ≠ .stepw w) → t.acc = s.acc)

/-- R93: `RD` and `TRD` each add exactly one response behind the others; no other command adds any. -/
def Obligations.OnlyRdAndTrdRespond : Prop :=
  ∀ (i : Instr) (s : State), ∃ t, exec i s = .next t ∧
    (((∃ r, i = .rd r) ∨ (∃ k n, i = .trd k n)) → ∃ v, t.responses = s.responses ++ [v]) ∧
    ((∀ r, i ≠ .rd r) → (∀ k n, i ≠ .trd k n) → t.responses = s.responses)

/-- R139: which commands build the table where it is not built; the others leave it absent. -/
def Obligations.WhichCommandsBuildTheTable : Prop :=
  ∀ (i : Instr) (s : State), s.tbl = none →
    ∃ t, exec i s = .next t ∧ (UsesTable i s → t.tbl = some buildTable) ∧ (¬ UsesTable i s → t.tbl = none)

/-- R43, R44, R213: the hidden storage is unobservable: two states that differ in it alone (and in the numbering of the
free values) step to states that differ in it alone. -/
def Obligations.HiddenStorageIsUnobservable : Prop :=
  ∀ (s t : State) (scr : Scratch) (n : Nat), step s = .next t →
    ∃ scr' n', step { s with scratch := scr, freeIdx := n } = .next { t with scratch := scr', freeIdx := n' }

/-! Register access (40_register_access.md) -/

/-- R120: `WR` writes the register it names and nothing else; `CTRL` keeps bit 0 of the operand; on `STATUS` (which no
word encodes, R97) it raises Illegal. -/
def Obligations.WrWritesTheNamedRegister : Prop :=
  ∀ (d : Word) (s : State),
    exec (.wr .crc d) s = .next { s with crc := d } ∧ exec (.wr .crcb d) s = .next { s with crcb := d } ∧
      exec (.wr .addr d) s = .next { s with addr := d } ∧ exec (.wr .len d) s = .next { s with len := d } ∧
      exec (.wr .lenh d) s = .next { s with lenh := d } ∧ exec (.wr .acc d) s = .next { s with acc := d } ∧
      exec (.wr .ctrl d) s = .next { s with wordEn := d.getLsbD 0 } ∧
      exec (.wr .status d) s = .next { s with ill := true }

/-- R121: `RD` responds the named register and changes nothing but the response queue. -/
def Obligations.RdRespondsTheNamedRegister : Prop :=
  ∀ s : State,
    exec (.rd .crc) s = .next { s with responses := s.responses ++ [s.crc] } ∧
      exec (.rd .crcb) s = .next { s with responses := s.responses ++ [s.crcb] } ∧
      exec (.rd .addr) s = .next { s with responses := s.responses ++ [s.addr] } ∧
      exec (.rd .len) s = .next { s with responses := s.responses ++ [s.len] } ∧
      exec (.rd .lenh) s = .next { s with responses := s.responses ++ [s.lenh] } ∧
      exec (.rd .acc) s = .next { s with responses := s.responses ++ [s.acc] } ∧
      exec (.rd .ctrl) s = .next { s with responses := s.responses ++ [if s.wordEn then 1 else 0] } ∧
      exec (.rd .status) s = .next { s with responses := s.responses ++ [statusWord s] }

/-- R123, R31, R35: what `RD STATUS` responds, bit by bit. -/
def Obligations.StatusReadsItsFourBits : Prop :=
  ∀ s : State, ∃ v, exec (.rd .status) s = .next { s with responses := s.responses ++ [v] } ∧
    v.getLsbD 0 = s.tbl.isSome ∧ v.getLsbD 1 = s.be ∧ v.getLsbD 2 = s.ill ∧ v.getLsbD 3 = false ∧
    ∀ i, 4 ≤ i → v.getLsbD i = false

/-- R120, R121, R122: a register written and then read responds the operand (bit 0 of it for `CTRL`), and every other
register reads as before, `STATUS` among them. -/
def Obligations.ReadBackAfterWrite : Prop :=
  ∀ (r : Reg) (d : Word) (s : State), r ≠ .status →
    ∃ t, exec (.wr r d) s = .next t ∧
      exec (.rd r) t = .next { t with responses := s.responses ++ [if r = .ctrl then d &&& 1 else d] } ∧
      ∀ q, q ≠ r → readReg q t = readReg q s

/-! Table generator (41_table_generator.md) -/

/-- R136: `TBUILD` leaves the built table and changes nothing else; a second one changes nothing at all. -/
def Obligations.TbuildIsIdempotent : Prop :=
  ∀ s : State, TableOk s →
    exec .tbuild s = .next { s with tbl := some buildTable } ∧
      exec .tbuild { s with tbl := some buildTable } = .next { s with tbl := some buildTable }

/-- R130, R131, R132, R138 through R137: `TRD k, n` builds the table if needed and responds a value that is the same in
every state: eight bit steps for set 0, each of sets 1 to 3 from the one before, sets 4 to 7 byte-reversed, and 0 at
index 0 of every set. -/
def Obligations.TrdRespondsTheTableOfTheRules : Prop :=
  ∃ v : BitVec 3 → Byte → Word,
    (∀ (k : BitVec 3) (n : Byte) (s : State), TableOk s →
      exec (.trd k n) s = .next { s with tbl := some buildTable, responses := s.responses ++ [v k n] }) ∧
    (∀ n, v 0 n = crcBitStep^[8] (n.setWidth 32)) ∧
    (∀ k n, 1 ≤ k.toNat → k.toNat ≤ 3 → v k n = v 0 ((v (k - 1) n).extractLsb' 0 8) ^^^ (v (k - 1) n >>> 8)) ∧
    (∀ k n, k.toNat ≤ 3 → v (k + 4) n = bswap (v k n)) ∧
    ∀ k, v k 0 = 0

/-! Byte update engine (42_byte_update.md) -/

/-- R150, R151: `STEPB` looks up one entry of set 0 of the table (the stored one, or the one it builds), writes `ACC` and
changes nothing else. -/
def Obligations.StepbLooksUpOneEntry : Prop :=
  ∀ (b : Byte) (s : State) (t : Table), s.tbl = some t ∨ (s.tbl = none ∧ t = buildTable) →
    exec (.stepb b) s =
      .next { s with
        tbl := some t
        acc := lookup t 0 ((s.acc ^^^ b.setWidth 32).extractLsb' 0 8) ^^^ (s.acc >>> 8) }

/-- R152: the byte step equals eight bit steps on the register with the byte exclusive-ored into its low end. -/
def Obligations.ByteStepIsEightBitSteps : Prop :=
  ∀ (c : Word) (b : Byte), byteStep buildTable c b = crcBitStep^[8] (c ^^^ b.setWidth 32)

/-- R153: the byte step on a byte-swapped register uses table set 4 and shifts the other way. -/
def Obligations.ByteStepOnSwappedRegister : Prop :=
  ∀ (c : Word) (b : Byte),
    bswap (byteStep buildTable c b) =
      lookup buildTable 4 ((bswap c >>> 24 ^^^ b.setWidth 32).extractLsb' 0 8) ^^^ (bswap c <<< 8)

/-! Word folding unit (43_word_folding.md) -/

/-- R161, R162, R163: `STEPW` makes four lookups, in sets 0 to 3 on a little-endian engine and in sets 4 to 7 of the
byte-swapped register on a big-endian one, writes `ACC` and changes nothing else. -/
def Obligations.StepwMakesFourLookups : Prop :=
  ∀ (w : Word) (s : State) (t : Table), s.tbl = some t ∨ (s.tbl = none ∧ t = buildTable) →
    (s.be = false →
      exec (.stepw w) s =
        .next { s with
          tbl := some t
          acc :=
            lookup t 3 ((s.acc ^^^ w).extractLsb' 0 8) ^^^ lookup t 2 ((s.acc ^^^ w).extractLsb' 8 8) ^^^
              lookup t 1 ((s.acc ^^^ w).extractLsb' 16 8) ^^^ lookup t 0 ((s.acc ^^^ w).extractLsb' 24 8) }) ∧
    (s.be = true →
      exec (.stepw w) s =
        .next { s with
          tbl := some t
          acc :=
            bswap (lookup t 4 ((bswap s.acc ^^^ w).extractLsb' 0 8) ^^^
              lookup t 5 ((bswap s.acc ^^^ w).extractLsb' 8 8) ^^^
              lookup t 6 ((bswap s.acc ^^^ w).extractLsb' 16 8) ^^^
              lookup t 7 ((bswap s.acc ^^^ w).extractLsb' 24 8)) })

/-- R164: `STEPW` leaves exactly the state that four `STEPB` of its bytes in stream order leave, in either byte order. -/
def Obligations.StepwEqualsFourStepb : Prop :=
  ∀ (b0 b1 b2 b3 : Byte) (s : State), TableOk s →
    ∃ t1 t2 t3 t,
      exec (.stepb b0) s = .next t1 ∧ exec (.stepb b1) t1 = .next t2 ∧ exec (.stepb b2) t2 = .next t3 ∧
        exec (.stepb b3) t3 = .next t ∧
        (s.be = false → exec (.stepw (b3 ++ b2 ++ b1 ++ b0)) s = .next t) ∧
        (s.be = true → exec (.stepw (b0 ++ b1 ++ b2 ++ b3)) s = .next t)

/-! Streaming update (44_streaming_update.md, 20_memory.md) -/

/-- R171: an absent or empty buffer writes 0 to `CRC`, whatever it held, and does nothing else. -/
def Obligations.AbsentOrEmptyBufferClearsCrc : Prop :=
  ∀ s : State,
    exec .updateNb s = .next { s with crc := 0 } ∧ (s.len = 0 → exec .update s = .next { s with crc := 0 })

/-- R175, R172, R177: over a buffer of at least one byte `UPDATE` leaves in `CRC` the complement of the byte steps folded
over the buffer's bytes in stream order from the complement of `CRC`, in `ACC` the complement of that, and changes
nothing else but the hidden `PTR` and `REM`, whatever `WORD_EN`, `BIG_ENDIAN` and the alignment are. From `CRC` = 0 that is
the CRC-32 of the bytes, the `crc(S)` of R210. -/
def Obligations.UpdateFoldsTheBuffer : Prop :=
  ∀ s : State, TableOk s → s.len ≠ 0 →
    let bytes := bufferBytes s.mem s.addr s.len.toNat
    let c := bytes.foldl (byteStep buildTable) (~~~s.crc)
    (∃ ptr rem n,
      exec .update s =
        .next { s with
          tbl := some buildTable
          crc := ~~~c
          acc := c
          scratch := { s.scratch with ptr := ptr, rem := rem }
          freeIdx := n }) ∧
    (s.crc = 0 → ~~~c = crcOf bytes)

/-- R176: the same `CRC`, the same buffer bytes and the same `LEN` give the same `CRC`, and, where a byte is consumed, the
same `ACC`, whatever the strategy, the byte order, the place of the buffer and the rest of the state. -/
def Obligations.StrategyIsNotObservable : Prop :=
  ∀ s s' : State, TableOk s → TableOk s' → s'.crc = s.crc → s'.len = s.len →
    (∀ i < s.len.toNat, s'.mem.read (s'.addr + BitVec.ofNat 32 i) = s.mem.read (s.addr + BitVec.ofNat 32 i)) →
      ∃ t t', exec .update s = .next t ∧ exec .update s' = .next t' ∧ t'.crc = t.crc ∧ (s.len ≠ 0 → t'.acc = t.acc)

/-- R178: two updates over consecutive non-empty pieces leave the `CRC` and `ACC` of one update over both; with `CRC` = 0
before the first, the CRC-32 of the whole stream. -/
def Obligations.UpdatesChain : Prop :=
  ∀ (s : State) (lenA lenB : Word), TableOk s → lenA ≠ 0 → lenB ≠ 0 → lenA.toNat + lenB.toNat < 2 ^ 32 →
    ∃ t1 t2 t,
      exec .update { s with len := lenA } = .next t1 ∧
        exec .update { t1 with addr := s.addr + lenA, len := lenB } = .next t2 ∧
        exec .update { s with len := lenA + lenB } = .next t ∧
        t2.crc = t.crc ∧ t2.acc = t.acc ∧
        (s.crc = 0 → t2.crc = crcOf (bufferBytes s.mem s.addr (lenA.toNat + lenB.toNat)))

/-- R64, R65, R66: `UPDATE` folds a list of reads that covers every byte of the buffer exactly once, in ascending stream
order, and no other byte (the list is the model's form of the accesses, log 17); with `WORD_EN` = 0 all are of one byte;
with `WORD_EN` = 1 they are one-byte reads to the next multiple of 4, then four-byte reads at multiples of 4 while at
least 4 bytes remain, then 0 to 3 one-byte reads. -/
def Obligations.UpdateReadsEachByteOnce : Prop :=
  ∀ s : State, s.len ≠ 0 →
    let reads := updateReads s.wordEn s.len.toNat s.addr
    ∃ t, exec .update s = .next t ∧
      t.acc = reads.foldl (foldAccess s.be (currentTable s) s.mem) (~~~s.crc) ∧
      reads.flatMap accessBytes = (List.range s.len.toNat).map (fun i => s.addr + BitVec.ofNat 32 i) ∧
      (s.wordEn = false → ∀ r ∈ reads, ∃ a, r = .byte a) ∧
      (s.wordEn = true →
        ∃ head body tail : List Word,
          reads = head.map .byte ++ body.map .word ++ tail.map .byte ∧
            head.length = min s.len.toNat ((4 - s.addr.toNat % 4) % 4) ∧
            body.length = (s.len.toNat - head.length) / 4 ∧ tail.length < 4 ∧ ∀ a ∈ body, a.toNat % 4 = 0)

/-- R62: a four-byte read returns the bytes at `a` to `a + 3` with the byte at `a` in the low end on a little-endian
engine and in the high end on a big-endian one, and in both the stream order of its bytes is the order of addresses. -/
def Obligations.FourByteReadFollowsTheStrap : Prop :=
  ∀ (m : Memory) (a : Word),
    m.read4 false a = m.read (a + 3) ++ m.read (a + 2) ++ m.read (a + 1) ++ m.read a ∧
      m.read4 true a = m.read a ++ m.read (a + 1) ++ m.read (a + 2) ++ m.read (a + 3) ∧
      ∀ be, streamBytes be (m.read4 be a) = [m.read a, m.read (a + 1), m.read (a + 2), m.read (a + 3)]

/-- R179 and the reference vector of 95_test_vectors.md V1: from `CRC` = 0 the nine bytes "123456789", wherever they stand
and with either strategy and byte order, give `0xCBF43926`. -/
def Obligations.ReferenceVector : Prop :=
  ∀ s : State, TableOk s → s.crc = 0 → s.len = 9 →
    (∀ i < 9, s.mem.read (s.addr + BitVec.ofNat 32 i) = BitVec.ofNat 8 (0x31 + i)) →
      ∃ t, exec .update s = .next t ∧ t.crc = 0xCBF43926 ∧ t.acc = 0x340BC6D9

/-! Combiner (46_combine.md) -/

/-- R200, R202: the product with a one-bit vector is the row of that bit, the product with a sum is the sum of the
products, and the product with 0 is 0. -/
def Obligations.ProductSelectsRows : Prop :=
  ∀ m : BitMatrix,
    (∀ i : Fin 32, gf2Times m (1#32 <<< i.val) = m[i]) ∧ gf2Times m 0 = 0 ∧
      ∀ u v, gf2Times m (u ^^^ v) = gf2Times m u ^^^ gf2Times m v

/-- R203: a squared matrix has the rows the rule gives it and is the operator applied twice. -/
def Obligations.SquareIsTheOperatorTwice : Prop :=
  ∀ m : BitMatrix,
    (∀ n : Fin 32, (gf2Square m)[n] = gf2Times m m[n]) ∧ ∀ v, gf2Times (gf2Square m) v = gf2Times m (gf2Times m v)

/-- R205, R201: the rows of the starting matrix; it is the bit step; squared three times it appends one zero byte. -/
def Obligations.StartingMatrixIsOneZeroBit : Prop :=
  zeroBitMatrix[0] = 0xEDB88320 ∧
    (∀ n : Fin 32, 1 ≤ n.val → zeroBitMatrix[n] = 1#32 <<< (n.val - 1)) ∧
    ∀ v, gf2Times zeroBitMatrix v = crcBitStep v ∧ gf2Times zeroByteMatrix v = byteStep buildTable v 0

/-- R206: after the loop the running value is `Z(8 * len)` applied to `CRC`, that is, `8 * len` bit steps. -/
def Obligations.CombineLoopAppendsZeroBytes : Prop :=
  ∀ (len : BitVec 64) (c : Word), 0 < len.toInt → combineShift len c = crcBitStep^[8 * len.toNat] c

/-- R208, R204, R207: `COMB32` with a positive signed `LEN` writes `CRC` with the loop's value exclusive-or `CRCB`, and
changes nothing else but the hidden matrices and length copy; with `LEN` zero or negative it writes nothing. -/
def Obligations.Comb32CombinesBySignedLen : Prop :=
  ∀ s : State,
    (0 < s.len.toInt →
      ∃ e o l n,
        exec .comb32 s =
          .next { s with
            crc := combineShift (s.len.setWidth 64) s.crc ^^^ s.crcb
            scratch := { s.scratch with matE := e, matO := o, lenCopy := l }
            freeIdx := n }) ∧
    (s.len.toInt ≤ 0 → exec .comb32 s = .next s)

/-- R209, R204, R207: `COMB64` with a positive signed 64-bit `{LENH, LEN}` writes `CRC` with the loop's value exclusive-or
`CRCB`, and changes nothing else but the hidden matrices and length copy; with a length zero or negative it writes
nothing. -/
def Obligations.Comb64CombinesBySignedLength : Prop :=
  ∀ s : State,
    (0 < (s.lenh ++ s.len).toInt →
      ∃ e o l n,
        exec .comb64 s =
          .next { s with
            crc := combineShift (s.lenh ++ s.len) s.crc ^^^ s.crcb
            scratch := { s.scratch with matE := e, matO := o, lenCopy := l }
            freeIdx := n }) ∧
    ((s.lenh ++ s.len).toInt ≤ 0 → exec .comb64 s = .next s)

/-- R209: with `LENH` = 0 and `LEN[31]` = 0, `COMB64` and `COMB32` give the same result. -/
def Obligations.Comb32AndComb64Agree : Prop :=
  ∀ s : State, s.lenh = 0 → s.len.getLsbD 31 = false → exec .comb64 s = exec .comb32 s

/-- R211: the combiner reads no table entry and no memory and does not change `STATUS.TV`: with another table, built or
not, and another memory, the result is the same and these stay as they were. -/
def Obligations.CombinerIgnoresTableAndMemory : Prop :=
  ∀ (i : Instr) (s : State) (tb : Option Table) (m : Memory), i = .comb32 ∨ i = .comb64 →
    ∃ t, exec i s = .next t ∧ t.tbl = s.tbl ∧
      exec i { s with tbl := tb, mem := m } = .next { t with tbl := tb, mem := m }

/-- R210: for all byte strings `X` and `Y` with `|Y| < 2^63`, `combine(crc(X), crc(Y), |Y|)` = `crc(X‖Y)`, by `COMB64`, and
by `COMB32` where `|Y| < 2^31`; and the value after the loop for `n` bytes is the exclusive-or of the checksum of `X` and
`n` zero bytes with that of the `n` zero bytes alone (90_conflicts.md C5). -/
def Obligations.CombineGivesTheChecksumOfTheConcatenation : Prop :=
  ∀ (xs ys : List Byte) (s : State), s.crc = crcOf xs → s.crcb = crcOf ys →
    ((s.lenh ++ s.len).toNat = ys.length → ys.length < 2 ^ 63 →
      ∃ t, exec .comb64 s = .next t ∧ t.crc = crcOf (xs ++ ys)) ∧
    (s.len.toNat = ys.length → ys.length < 2 ^ 31 →
      ∃ t, exec .comb32 s = .next t ∧ t.crc = crcOf (xs ++ ys)) ∧
    ∀ n, 0 < n → n < 2 ^ 63 →
      combineShift (BitVec.ofNat 64 n) s.crc = crcOf (xs ++ List.replicate n 0) ^^^ crcOf (List.replicate n 0)
end

