-- ==== Sys2Proof/Laws/Bits.lean ====
section
/-!
SUPPORT. Four bytes in a row, bit by bit, and what follows for `bswap`, `packWord` and `streamBytes`.
-/

namespace Sys2Proof.Machine

/-- A bit of four bytes in a row. -/
theorem getLsbD_bytes (a b c d : Byte) (i : Nat) :
    (a ++ b ++ c ++ d : Word).getLsbD i =
      if i < 8 then d.getLsbD i else if i < 16 then c.getLsbD (i - 8) else if i < 24 then b.getLsbD (i - 16)
      else a.getLsbD (i - 24) := by
  rw [BitVec.getLsbD_append, BitVec.getLsbD_append, BitVec.getLsbD_append, Nat.sub_sub, Nat.sub_sub]
  split_ifs <;> first | rfl | omega

/-- A byte taken out of four in a row. -/
theorem extract_bytes (a b c d : Byte) :
    (a ++ b ++ c ++ d : Word).extractLsb' 0 8 = d ∧ (a ++ b ++ c ++ d : Word).extractLsb' 8 8 = c ∧
      (a ++ b ++ c ++ d : Word).extractLsb' 16 8 = b ∧ (a ++ b ++ c ++ d : Word).extractLsb' 24 8 = a := by
  refine ⟨?_, ?_, ?_, ?_⟩ <;>
  · apply BitVec.eq_of_getLsbD_eq
    intro i hi
    simp only [BitVec.getLsbD_extractLsb', hi, decide_true, Bool.true_and]
    rw [getLsbD_bytes]
    split_ifs <;> first | omega | (congr 1; omega)

/-- A word is its four bytes in a row. -/
theorem bytes_of_word (v : Word) :
    (v.extractLsb' 24 8 ++ v.extractLsb' 16 8 ++ v.extractLsb' 8 8 ++ v.extractLsb' 0 8 : Word) = v := by
  apply BitVec.eq_of_getLsbD_eq
  intro i hi
  rw [getLsbD_bytes]
  simp only [BitVec.getLsbD_extractLsb']
  split_ifs <;> (rw [decide_eq_true (by omega), Bool.true_and]; congr 1; omega)

/-- The bytes of a byte-reversed word. -/
theorem extract_bswap (v : Word) :
    (bswap v).extractLsb' 0 8 = v.extractLsb' 24 8 ∧ (bswap v).extractLsb' 8 8 = v.extractLsb' 16 8 ∧
      (bswap v).extractLsb' 16 8 = v.extractLsb' 8 8 ∧ (bswap v).extractLsb' 24 8 = v.extractLsb' 0 8 :=
  extract_bytes _ _ _ _

@[simp] theorem bswap_bswap (v : Word) : bswap (bswap v) = v := by
  obtain ⟨h0, h1, h2, h3⟩ := extract_bswap v
  rw [bswap, h0, h1, h2, h3]
  exact bytes_of_word v

theorem bswap_xor (a b : Word) : bswap (a ^^^ b) = bswap a ^^^ bswap b := by
  apply BitVec.eq_of_getLsbD_eq
  intro i hi
  simp only [bswap, BitVec.getLsbD_xor, getLsbD_bytes, BitVec.extractLsb'_xor]
  split_ifs <;> rfl

/-- Moving towards the low end before `bswap` is moving towards the high end after it. -/
theorem bswap_ushiftRight_eight (v : Word) : bswap (v >>> 8) = bswap v <<< 8 := by
  apply BitVec.eq_of_getLsbD_eq
  intro i hi
  simp only [bswap, BitVec.getLsbD_shiftLeft, getLsbD_bytes, BitVec.getLsbD_extractLsb', BitVec.getLsbD_ushiftRight]
  interval_cases i <;> simp

/-- Packing in the other byte order is `bswap` (R160). -/
theorem packWord_true (b0 b1 b2 b3 : Byte) : packWord true b0 b1 b2 b3 = bswap (packWord false b0 b1 b2 b3) := by
  obtain ⟨h0, h1, h2, h3⟩ := extract_bytes b3 b2 b1 b0
  rw [bswap, packWord, packWord, if_pos rfl, if_neg Bool.false_ne_true, h0, h1, h2, h3]

end Sys2Proof.Machine
end

