-- ==== Sys2Proof/Laws/Decode.lean ====
section
/-!
SUPPORT. The fields of a word put together by `cmdWord`, and registers by number.
-/

namespace Sys2Proof

/-- A bit of a word put together from its fields (R91). -/
theorem getLsbD_cmdWord (op : BitVec 8) (fn : BitVec 24) (imm32 : Word) (i : Nat) :
    (cmdWord op fn imm32).getLsbD i =
      if i < 32 then imm32.getLsbD i else if i < 56 then fn.getLsbD (i - 32) else op.getLsbD (i - 56) := by
  rw [cmdWord, BitVec.getLsbD_append, BitVec.getLsbD_append, Nat.sub_sub]
  split_ifs <;> first | rfl | omega

@[simp] theorem opField_cmdWord (op : BitVec 8) (fn : BitVec 24) (imm32 : Word) : opField (cmdWord op fn imm32) = op := by
  apply BitVec.eq_of_getLsbD_eq
  intro i hi
  simp only [opField, BitVec.getLsbD_extractLsb', hi, decide_true, Bool.true_and, getLsbD_cmdWord]
  rw [if_neg (by omega), if_neg (by omega)]
  congr 1
  omega

@[simp] theorem imm32Field_cmdWord (op : BitVec 8) (fn : BitVec 24) (imm32 : Word) :
    imm32Field (cmdWord op fn imm32) = imm32 := by
  apply BitVec.eq_of_getLsbD_eq
  intro i hi
  simp only [imm32Field, BitVec.getLsbD_extractLsb', hi, decide_true, Bool.true_and, getLsbD_cmdWord, Nat.zero_add,
    if_true]

theorem imm8Field_cmdWord (op : BitVec 8) (fn : BitVec 24) (imm32 : Word) :
    imm8Field (cmdWord op fn imm32) = imm32.setWidth 8 := by
  apply BitVec.eq_of_getLsbD_eq
  intro i hi
  simp only [imm8Field, BitVec.getLsbD_extractLsb', hi, decide_true, Bool.true_and, getLsbD_cmdWord, Nat.zero_add,
    BitVec.getLsbD_setWidth]
  rw [if_pos (by omega)]

/-- A field inside `fn`, in the bits from `32 + j` up. -/
theorem fnField_cmdWord (op : BitVec 8) (fn : BitVec 24) (imm32 : Word) (j n : Nat) (h : j + n ≤ 24) :
    (cmdWord op fn imm32).extractLsb' (32 + j) n = fn.extractLsb' j n := by
  apply BitVec.eq_of_getLsbD_eq
  intro i hi
  simp only [BitVec.getLsbD_extractLsb', hi, decide_true, Bool.true_and, getLsbD_cmdWord]
  rw [if_neg (by omega), if_pos (by omega)]
  congr 1
  omega

/-- A word is put together from its own fields. -/
theorem cmdWord_fields (cw : CmdWord) : cmdWord (opField cw) (cw.extractLsb' 32 24) (imm32Field cw) = cw := by
  apply BitVec.eq_of_getLsbD_eq
  intro i hi
  rw [getLsbD_cmdWord]
  simp only [opField, imm32Field, BitVec.getLsbD_extractLsb']
  split_ifs <;> (rw [decide_eq_true (by omega), Bool.true_and]; congr 1; omega)

@[simp] theorem regOfIndex_regIndex (r : Reg) : regOfIndex (regIndex r) = some r := by cases r <;> rfl

/-- Only the register's own index names it. -/
theorem regIndex_of_regOfIndex {n : BitVec 4} {r : Reg} (h : regOfIndex n = some r) : regIndex r = n := by
  revert n r
  decide

end Sys2Proof
end

