-- ==== Sys2Proof/Laws/Memory.lean ====
section
/-!
SUPPORT. The data memory: a read after a write, and the canonical form, which makes equal memories equal lists.
-/

namespace Sys2Proof.Machine

theorem readKey_cons (k : Nat) (b : Byte) (m : Memory) (a : Nat) (h : ∀ c ∈ m, c.1 ≠ k) :
    Memory.readKey (Memory.cons k b m) a = if a = k then b else Memory.readKey m a := by
  unfold Memory.cons
  split
  · rename_i hb
    split
    · rename_i ha
      subst ha hb
      induction m with
      | nil => rfl
      | cons c m ih =>
        obtain ⟨j, d⟩ := c
        have hj := h (j, d) (by simp)
        simp only at hj
        simp only [Memory.readKey, if_neg (Ne.symm hj)]
        exact ih fun c hc => h c (by simp [hc])
    · rfl
  · rfl

/-- A key that stands in front of every entry reads as an unlisted address. -/
theorem readKey_of_lt (m : Memory) (a : Nat) (h : ∀ c ∈ m, a < c.1) : Memory.readKey m a = Memory.unlisted := by
  induction m with
  | nil => rfl
  | cons c m ih =>
    obtain ⟨k, d⟩ := c
    have hk := h (k, d) (by simp)
    simp only at hk
    simp only [Memory.readKey, if_neg (by omega : ¬ a = k)]
    exact ih fun c hc => h c (by simp [hc])

theorem readKey_writeKey (m : Memory) (a : Nat) (b : Byte) (x : Nat) (h : m.Pairwise fun p q => p.1 < q.1) :
    Memory.readKey (Memory.writeKey m a b) x = if x = a then b else Memory.readKey m x := by
  induction m with
  | nil => exact readKey_cons a b [] x (by simp)
  | cons c m ih =>
    obtain ⟨k, d⟩ := c
    rw [List.pairwise_cons] at h
    obtain ⟨hk, hm⟩ := h
    simp only [Memory.writeKey]
    split
    · rename_i hak
      refine readKey_cons a b _ x ?_
      intro c hc
      rcases List.mem_cons.mp hc with rfl | hc
      · simp only; omega
      · have := hk c hc; simp only at this; omega
    · split
      · rename_i _ hak
        subst hak
        rw [readKey_cons a b m x (fun c hc => by have := hk c hc; simp only at this; omega)]
        simp only [Memory.readKey]
        split <;> rfl
      · rename_i _ hak
        simp only [Memory.readKey, ih hm]
        split <;> split <;> first | rfl | omega

/-- The host's store, read back: the stored byte at its address, every other byte as before. -/
theorem read_write (m : Memory) (a : Word) (b : Byte) (x : Word) (h : m.wf) :
    (m.write a b).read x = if x = a then b else m.read x := by
  unfold Memory.read Memory.write
  rw [readKey_writeKey m _ b _ h.1]
  simp only [BitVec.toNat_inj]

theorem mem_cons_of (k : Nat) (b : Byte) (m : Memory) {c : Host.Cell} (h : c ∈ Memory.cons k b m) :
    (c = (k, b) ∧ b ≠ Memory.unlisted) ∨ c ∈ m := by
  unfold Memory.cons at h
  split at h
  · exact .inr h
  · rcases List.mem_cons.mp h with h | h
    · exact .inl ⟨h, by assumption⟩
    · exact .inr h

theorem mem_writeKey_of (m : Memory) (a : Nat) (b : Byte) {c : Host.Cell} (h : c ∈ Memory.writeKey m a b) :
    (c = (a, b) ∧ b ≠ Memory.unlisted) ∨ c ∈ m := by
  induction m with
  | nil => exact mem_cons_of a b [] h
  | cons e m ih =>
    simp only [Memory.writeKey] at h
    split at h
    · exact mem_cons_of a b _ h
    · split at h
      · rcases mem_cons_of a b m h with h | h
        · exact .inl h
        · exact .inr (List.mem_cons_of_mem _ h)
      · rcases List.mem_cons.mp h with rfl | h
        · exact .inr (by simp)
        · rcases ih h with h | h
          · exact .inl h
          · exact .inr (List.mem_cons_of_mem _ h)

theorem cons_pairwise (k : Nat) (b : Byte) (m : Memory) (h : m.Pairwise fun p q => p.1 < q.1)
    (hk : ∀ c ∈ m, k < c.1) : (Memory.cons k b m).Pairwise fun p q => p.1 < q.1 := by
  unfold Memory.cons
  split
  · exact h
  · exact List.pairwise_cons.mpr ⟨fun c hc => hk c hc, h⟩

theorem writeKey_pairwise (m : Memory) (a : Nat) (b : Byte) (h : m.Pairwise fun p q => p.1 < q.1) :
    (Memory.writeKey m a b).Pairwise fun p q => p.1 < q.1 := by
  induction m with
  | nil => exact cons_pairwise a b [] .nil (by simp)
  | cons e m ih =>
    obtain ⟨k, d⟩ := e
    have h0 := h
    rw [List.pairwise_cons] at h
    obtain ⟨hk, hm⟩ := h
    simp only [Memory.writeKey]
    split
    · refine cons_pairwise a b _ h0 ?_
      intro c hc
      rcases List.mem_cons.mp hc with rfl | hc
      · assumption
      · have := hk c hc; simp only at this; omega
    · split
      · rename_i _ hak
        subst hak
        exact cons_pairwise a b m hm hk
      · refine List.pairwise_cons.mpr ⟨?_, ih hm⟩
        intro c hc
        rcases mem_writeKey_of m a b hc with ⟨rfl, _⟩ | hc
        · simp only; omega
        · exact hk c hc

/-- The only operation that changes a memory keeps the canonical form. -/
theorem write_wf (m : Memory) (a : Word) (b : Byte) (h : m.wf) : (m.write a b).wf := by
  refine ⟨writeKey_pairwise m _ b h.1, ?_⟩
  intro c hc
  rcases mem_writeKey_of m _ b hc with ⟨rfl, hb⟩ | hc
  · exact ⟨a.isLt, hb⟩
  · exact h.2 c hc

/-- Reset memory is in the canonical form. -/
theorem nil_wf : Memory.wf [] := by decide

/-- An entry of a memory in the canonical form is what its key reads as. -/
theorem readKey_of_mem (m : Memory) (h : m.Pairwise fun p q => p.1 < q.1) {c : Host.Cell} (hc : c ∈ m) :
    Memory.readKey m c.1 = c.2 := by
  induction m with
  | nil => simp at hc
  | cons e m ih =>
    obtain ⟨k, d⟩ := e
    rw [List.pairwise_cons] at h
    rcases List.mem_cons.mp hc with rfl | hc
    · simp [Memory.readKey]
    · have hk := h.1 c hc
      simp only at hk
      simp only [Memory.readKey, if_neg (by omega : ¬ c.1 = k)]
      exact ih h.2 hc

/-- In the canonical form two memories that read alike everywhere are the same list. -/
theorem eq_of_readKey_eq (m m' : Memory) (h : m.wf) (h' : m'.wf)
    (hr : ∀ a, Memory.readKey m a = Memory.readKey m' a) : m = m' := by
  induction m generalizing m' with
  | nil =>
    cases m' with
    | nil => rfl
    | cons e m' =>
      have h1 := hr e.1
      rw [readKey_of_mem _ h'.1 (by simp)] at h1
      exact absurd h1.symm (h'.2 e (by simp)).2
  | cons e m ih =>
    cases m' with
    | nil =>
      have h1 := hr e.1
      rw [readKey_of_mem _ h.1 (by simp)] at h1
      exact absurd h1 (h.2 e (by simp)).2
    | cons e' m' =>
      have hp := List.pairwise_cons.mp h.1
      have hp' := List.pairwise_cons.mp h'.1
      have he : e = e' := by
        rcases Nat.lt_trichotomy e.1 e'.1 with hlt | heq | hlt
        · have h1 := hr e.1
          rw [readKey_of_mem _ h.1 (by simp), readKey_of_lt (e' :: m') e.1] at h1
          · exact absurd h1 (h.2 e (by simp)).2
          · intro c hc
            rcases List.mem_cons.mp hc with rfl | hc
            · exact hlt
            · exact hlt.trans (hp'.1 c hc)
        · have h1 := hr e.1
          rw [readKey_of_mem _ h.1 (by simp), heq, readKey_of_mem _ h'.1 (by simp)] at h1
          exact Prod.ext heq h1
        · have h1 := hr e'.1
          rw [readKey_of_mem _ h'.1 (by simp), readKey_of_lt (e :: m) e'.1] at h1
          · exact absurd h1.symm (h'.2 e' (by simp)).2
          · intro c hc
            rcases List.mem_cons.mp hc with rfl | hc
            · exact hlt
            · exact hlt.trans (hp.1 c hc)
      subst he
      rw [ih m' ⟨hp.2, fun c hc => h.2 c (by simp [hc])⟩ ⟨hp'.2, fun c hc => h'.2 c (by simp [hc])⟩]
      intro a
      by_cases ha : a = e.1
      · subst ha
        rw [readKey_of_lt m _ hp.1, readKey_of_lt m' _ hp'.1]
      · have h1 := hr a
        simpa only [Memory.readKey, if_neg ha] using h1

end Sys2Proof.Machine
end

