-- ==== Sys2Proof/Laws/State.lean ====
section
/-!
SUPPORT. One lemma for each field of each update of the state, so that no proof unfolds an update; and the equations of a
register write. The updates that keep or change a field by a case split have their lemmas in Laws/Ops.lean.
-/

namespace Sys2Proof.Machine

section
variable (s : State)

@[simp] theorem raiseIllegal_crc : (raiseIllegal s).crc = s.crc := rfl
@[simp] theorem raiseIllegal_crcb : (raiseIllegal s).crcb = s.crcb := rfl
@[simp] theorem raiseIllegal_addr : (raiseIllegal s).addr = s.addr := rfl
@[simp] theorem raiseIllegal_len : (raiseIllegal s).len = s.len := rfl
@[simp] theorem raiseIllegal_lenh : (raiseIllegal s).lenh = s.lenh := rfl
@[simp] theorem raiseIllegal_acc : (raiseIllegal s).acc = s.acc := rfl
@[simp] theorem raiseIllegal_wordEn : (raiseIllegal s).wordEn = s.wordEn := rfl
@[simp] theorem raiseIllegal_ill : (raiseIllegal s).ill = true := rfl
@[simp] theorem raiseIllegal_be : (raiseIllegal s).be = s.be := rfl
@[simp] theorem raiseIllegal_tblEager : (raiseIllegal s).tblEager = s.tblEager := rfl
@[simp] theorem raiseIllegal_tbl : (raiseIllegal s).tbl = s.tbl := rfl
@[simp] theorem raiseIllegal_responses : (raiseIllegal s).responses = s.responses := rfl
@[simp] theorem raiseIllegal_busy : (raiseIllegal s).busy = s.busy := rfl
@[simp] theorem raiseIllegal_scratch : (raiseIllegal s).scratch = s.scratch := rfl
@[simp] theorem raiseIllegal_mem : (raiseIllegal s).mem = s.mem := rfl
@[simp] theorem raiseIllegal_inputs : (raiseIllegal s).inputs = s.inputs := rfl
@[simp] theorem raiseIllegal_freeIdx : (raiseIllegal s).freeIdx = s.freeIdx := rfl

end

section
variable (v : Word) (s : State)

@[simp] theorem respond_crc : (respond v s).crc = s.crc := rfl
@[simp] theorem respond_crcb : (respond v s).crcb = s.crcb := rfl
@[simp] theorem respond_addr : (respond v s).addr = s.addr := rfl
@[simp] theorem respond_len : (respond v s).len = s.len := rfl
@[simp] theorem respond_lenh : (respond v s).lenh = s.lenh := rfl
@[simp] theorem respond_acc : (respond v s).acc = s.acc := rfl
@[simp] theorem respond_wordEn : (respond v s).wordEn = s.wordEn := rfl
@[simp] theorem respond_ill : (respond v s).ill = s.ill := rfl
@[simp] theorem respond_be : (respond v s).be = s.be := rfl
@[simp] theorem respond_tblEager : (respond v s).tblEager = s.tblEager := rfl
@[simp] theorem respond_tbl : (respond v s).tbl = s.tbl := rfl
@[simp] theorem respond_responses : (respond v s).responses = s.responses ++ [v] := rfl
@[simp] theorem respond_busy : (respond v s).busy = s.busy := rfl
@[simp] theorem respond_scratch : (respond v s).scratch = s.scratch := rfl
@[simp] theorem respond_mem : (respond v s).mem = s.mem := rfl
@[simp] theorem respond_inputs : (respond v s).inputs = s.inputs := rfl
@[simp] theorem respond_freeIdx : (respond v s).freeIdx = s.freeIdx := rfl

end

section
variable (s : State)

@[simp] theorem ensureTable_crc : (ensureTable s).crc = s.crc := rfl
@[simp] theorem ensureTable_crcb : (ensureTable s).crcb = s.crcb := rfl
@[simp] theorem ensureTable_addr : (ensureTable s).addr = s.addr := rfl
@[simp] theorem ensureTable_len : (ensureTable s).len = s.len := rfl
@[simp] theorem ensureTable_lenh : (ensureTable s).lenh = s.lenh := rfl
@[simp] theorem ensureTable_acc : (ensureTable s).acc = s.acc := rfl
@[simp] theorem ensureTable_wordEn : (ensureTable s).wordEn = s.wordEn := rfl
@[simp] theorem ensureTable_ill : (ensureTable s).ill = s.ill := rfl
@[simp] theorem ensureTable_be : (ensureTable s).be = s.be := rfl
@[simp] theorem ensureTable_tblEager : (ensureTable s).tblEager = s.tblEager := rfl
@[simp] theorem ensureTable_tbl : (ensureTable s).tbl = some (currentTable s) := rfl
@[simp] theorem ensureTable_responses : (ensureTable s).responses = s.responses := rfl
@[simp] theorem ensureTable_busy : (ensureTable s).busy = s.busy := rfl
@[simp] theorem ensureTable_scratch : (ensureTable s).scratch = s.scratch := rfl
@[simp] theorem ensureTable_mem : (ensureTable s).mem = s.mem := rfl
@[simp] theorem ensureTable_inputs : (ensureTable s).inputs = s.inputs := rfl
@[simp] theorem ensureTable_freeIdx : (ensureTable s).freeIdx = s.freeIdx := rfl

end

section
variable (s : State)

@[simp] theorem spoilSequencer_crc : (spoilSequencer s).crc = s.crc := rfl
@[simp] theorem spoilSequencer_crcb : (spoilSequencer s).crcb = s.crcb := rfl
@[simp] theorem spoilSequencer_addr : (spoilSequencer s).addr = s.addr := rfl
@[simp] theorem spoilSequencer_len : (spoilSequencer s).len = s.len := rfl
@[simp] theorem spoilSequencer_lenh : (spoilSequencer s).lenh = s.lenh := rfl
@[simp] theorem spoilSequencer_acc : (spoilSequencer s).acc = s.acc := rfl
@[simp] theorem spoilSequencer_wordEn : (spoilSequencer s).wordEn = s.wordEn := rfl
@[simp] theorem spoilSequencer_ill : (spoilSequencer s).ill = s.ill := rfl
@[simp] theorem spoilSequencer_be : (spoilSequencer s).be = s.be := rfl
@[simp] theorem spoilSequencer_tblEager : (spoilSequencer s).tblEager = s.tblEager := rfl
@[simp] theorem spoilSequencer_tbl : (spoilSequencer s).tbl = s.tbl := rfl
@[simp] theorem spoilSequencer_responses : (spoilSequencer s).responses = s.responses := rfl
@[simp] theorem spoilSequencer_busy : (spoilSequencer s).busy = s.busy := rfl
@[simp] theorem spoilSequencer_scratch :
    (spoilSequencer s).scratch =
      { s.scratch with ptr := (Config.freeScratch s.freeIdx).ptr, rem := (Config.freeScratch s.freeIdx).rem } := rfl
@[simp] theorem spoilSequencer_mem : (spoilSequencer s).mem = s.mem := rfl
@[simp] theorem spoilSequencer_inputs : (spoilSequencer s).inputs = s.inputs := rfl
@[simp] theorem spoilSequencer_freeIdx : (spoilSequencer s).freeIdx = s.freeIdx + 1 := rfl

end

section
variable (s : State)

@[simp] theorem spoilCombiner_crc : (spoilCombiner s).crc = s.crc := rfl
@[simp] theorem spoilCombiner_crcb : (spoilCombiner s).crcb = s.crcb := rfl
@[simp] theorem spoilCombiner_addr : (spoilCombiner s).addr = s.addr := rfl
@[simp] theorem spoilCombiner_len : (spoilCombiner s).len = s.len := rfl
@[simp] theorem spoilCombiner_lenh : (spoilCombiner s).lenh = s.lenh := rfl
@[simp] theorem spoilCombiner_acc : (spoilCombiner s).acc = s.acc := rfl
@[simp] theorem spoilCombiner_wordEn : (spoilCombiner s).wordEn = s.wordEn := rfl
@[simp] theorem spoilCombiner_ill : (spoilCombiner s).ill = s.ill := rfl
@[simp] theorem spoilCombiner_be : (spoilCombiner s).be = s.be := rfl
@[simp] theorem spoilCombiner_tblEager : (spoilCombiner s).tblEager = s.tblEager := rfl
@[simp] theorem spoilCombiner_tbl : (spoilCombiner s).tbl = s.tbl := rfl
@[simp] theorem spoilCombiner_responses : (spoilCombiner s).responses = s.responses := rfl
@[simp] theorem spoilCombiner_busy : (spoilCombiner s).busy = s.busy := rfl
@[simp] theorem spoilCombiner_scratch :
    (spoilCombiner s).scratch =
      { s.scratch with
        matE := (Config.freeScratch s.freeIdx).matE
        matO := (Config.freeScratch s.freeIdx).matO
        lenCopy := (Config.freeScratch s.freeIdx).lenCopy } := rfl
@[simp] theorem spoilCombiner_mem : (spoilCombiner s).mem = s.mem := rfl
@[simp] theorem spoilCombiner_inputs : (spoilCombiner s).inputs = s.inputs := rfl
@[simp] theorem spoilCombiner_freeIdx : (spoilCombiner s).freeIdx = s.freeIdx + 1 := rfl

end

section
variable (rest : List HostAction) (s : State)

@[simp] theorem acceptWord_crc : (acceptWord rest s).crc = s.crc := rfl
@[simp] theorem acceptWord_crcb : (acceptWord rest s).crcb = s.crcb := rfl
@[simp] theorem acceptWord_addr : (acceptWord rest s).addr = s.addr := rfl
@[simp] theorem acceptWord_len : (acceptWord rest s).len = s.len := rfl
@[simp] theorem acceptWord_lenh : (acceptWord rest s).lenh = s.lenh := rfl
@[simp] theorem acceptWord_acc : (acceptWord rest s).acc = s.acc := rfl
@[simp] theorem acceptWord_wordEn : (acceptWord rest s).wordEn = s.wordEn := rfl
@[simp] theorem acceptWord_ill : (acceptWord rest s).ill = s.ill := rfl
@[simp] theorem acceptWord_be : (acceptWord rest s).be = s.be := rfl
@[simp] theorem acceptWord_tblEager : (acceptWord rest s).tblEager = s.tblEager := rfl
@[simp] theorem acceptWord_tbl : (acceptWord rest s).tbl = s.tbl := rfl
@[simp] theorem acceptWord_responses : (acceptWord rest s).responses = s.responses := rfl
@[simp] theorem acceptWord_busy : (acceptWord rest s).busy = true := rfl
@[simp] theorem acceptWord_scratch : (acceptWord rest s).scratch = s.scratch := rfl
@[simp] theorem acceptWord_mem : (acceptWord rest s).mem = s.mem := rfl
@[simp] theorem acceptWord_inputs : (acceptWord rest s).inputs = rest := rfl
@[simp] theorem acceptWord_freeIdx : (acceptWord rest s).freeIdx = s.freeIdx := rfl

end

section
variable (s : State)

@[simp] theorem finishCommand_crc : (finishCommand s).crc = s.crc := rfl
@[simp] theorem finishCommand_crcb : (finishCommand s).crcb = s.crcb := rfl
@[simp] theorem finishCommand_addr : (finishCommand s).addr = s.addr := rfl
@[simp] theorem finishCommand_len : (finishCommand s).len = s.len := rfl
@[simp] theorem finishCommand_lenh : (finishCommand s).lenh = s.lenh := rfl
@[simp] theorem finishCommand_acc : (finishCommand s).acc = s.acc := rfl
@[simp] theorem finishCommand_wordEn : (finishCommand s).wordEn = s.wordEn := rfl
@[simp] theorem finishCommand_ill : (finishCommand s).ill = s.ill := rfl
@[simp] theorem finishCommand_be : (finishCommand s).be = s.be := rfl
@[simp] theorem finishCommand_tblEager : (finishCommand s).tblEager = s.tblEager := rfl
@[simp] theorem finishCommand_tbl : (finishCommand s).tbl = s.tbl := rfl
@[simp] theorem finishCommand_responses : (finishCommand s).responses = s.responses := rfl
@[simp] theorem finishCommand_busy : (finishCommand s).busy = false := rfl
@[simp] theorem finishCommand_scratch : (finishCommand s).scratch = s.scratch := rfl
@[simp] theorem finishCommand_mem : (finishCommand s).mem = s.mem := rfl
@[simp] theorem finishCommand_inputs : (finishCommand s).inputs = s.inputs := rfl
@[simp] theorem finishCommand_freeIdx : (finishCommand s).freeIdx = s.freeIdx := rfl

end

section
variable (a : Word) (b : Byte) (rest : List HostAction) (s : State)

@[simp] theorem hostStore_crc : (hostStore a b rest s).crc = s.crc := rfl
@[simp] theorem hostStore_crcb : (hostStore a b rest s).crcb = s.crcb := rfl
@[simp] theorem hostStore_addr : (hostStore a b rest s).addr = s.addr := rfl
@[simp] theorem hostStore_len : (hostStore a b rest s).len = s.len := rfl
@[simp] theorem hostStore_lenh : (hostStore a b rest s).lenh = s.lenh := rfl
@[simp] theorem hostStore_acc : (hostStore a b rest s).acc = s.acc := rfl
@[simp] theorem hostStore_wordEn : (hostStore a b rest s).wordEn = s.wordEn := rfl
@[simp] theorem hostStore_ill : (hostStore a b rest s).ill = s.ill := rfl
@[simp] theorem hostStore_be : (hostStore a b rest s).be = s.be := rfl
@[simp] theorem hostStore_tblEager : (hostStore a b rest s).tblEager = s.tblEager := rfl
@[simp] theorem hostStore_tbl : (hostStore a b rest s).tbl = s.tbl := rfl
@[simp] theorem hostStore_responses : (hostStore a b rest s).responses = s.responses := rfl
@[simp] theorem hostStore_busy : (hostStore a b rest s).busy = s.busy := rfl
@[simp] theorem hostStore_scratch : (hostStore a b rest s).scratch = s.scratch := rfl
@[simp] theorem hostStore_mem : (hostStore a b rest s).mem = s.mem.write a b := rfl
@[simp] theorem hostStore_inputs : (hostStore a b rest s).inputs = rest := rfl
@[simp] theorem hostStore_freeIdx : (hostStore a b rest s).freeIdx = s.freeIdx := rfl

end

section
variable (cw : CmdWord) (s : State)

@[simp] theorem presentNext_crc : (presentNext cw s).crc = s.crc := rfl
@[simp] theorem presentNext_crcb : (presentNext cw s).crcb = s.crcb := rfl
@[simp] theorem presentNext_addr : (presentNext cw s).addr = s.addr := rfl
@[simp] theorem presentNext_len : (presentNext cw s).len = s.len := rfl
@[simp] theorem presentNext_lenh : (presentNext cw s).lenh = s.lenh := rfl
@[simp] theorem presentNext_acc : (presentNext cw s).acc = s.acc := rfl
@[simp] theorem presentNext_wordEn : (presentNext cw s).wordEn = s.wordEn := rfl
@[simp] theorem presentNext_ill : (presentNext cw s).ill = s.ill := rfl
@[simp] theorem presentNext_be : (presentNext cw s).be = s.be := rfl
@[simp] theorem presentNext_tblEager : (presentNext cw s).tblEager = s.tblEager := rfl
@[simp] theorem presentNext_tbl : (presentNext cw s).tbl = s.tbl := rfl
@[simp] theorem presentNext_responses : (presentNext cw s).responses = s.responses := rfl
@[simp] theorem presentNext_busy : (presentNext cw s).busy = false := rfl
@[simp] theorem presentNext_scratch : (presentNext cw s).scratch = s.scratch := rfl
@[simp] theorem presentNext_mem : (presentNext cw s).mem = s.mem := rfl
@[simp] theorem presentNext_inputs : (presentNext cw s).inputs = .present cw :: s.inputs := rfl
@[simp] theorem presentNext_freeIdx : (presentNext cw s).freeIdx = s.freeIdx := rfl

end

section
variable (v : Word) (s : State)

@[simp] theorem writeReg_crc : writeReg .crc v s = { s with crc := v } := rfl
@[simp] theorem readReg_crc : readReg .crc s = s.crc := rfl
@[simp] theorem writeReg_crcb : writeReg .crcb v s = { s with crcb := v } := rfl
@[simp] theorem readReg_crcb : readReg .crcb s = s.crcb := rfl
@[simp] theorem writeReg_addr : writeReg .addr v s = { s with addr := v } := rfl
@[simp] theorem readReg_addr : readReg .addr s = s.addr := rfl
@[simp] theorem writeReg_len : writeReg .len v s = { s with len := v } := rfl
@[simp] theorem readReg_len : readReg .len s = s.len := rfl
@[simp] theorem writeReg_lenh : writeReg .lenh v s = { s with lenh := v } := rfl
@[simp] theorem readReg_lenh : readReg .lenh s = s.lenh := rfl
@[simp] theorem writeReg_acc : writeReg .acc v s = { s with acc := v } := rfl
@[simp] theorem readReg_acc : readReg .acc s = s.acc := rfl
@[simp] theorem writeReg_ctrl : writeReg .ctrl v s = { s with wordEn := wordEnOf v } := rfl
@[simp] theorem readReg_ctrl : readReg .ctrl s = ctrlWord s := rfl
@[simp] theorem writeReg_status : writeReg .status v s = raiseIllegal s := rfl
@[simp] theorem readReg_status : readReg .status s = statusWord s := rfl

end

end Sys2Proof.Machine
end

