-- ==== Sys2Proof/Laws/Table.lean ====
section
/-!
SUPPORT. The table read entry by entry, the bit step as a linear map over GF(2), and the matrix product.
-/

namespace Sys2Proof.Machine

@[simp] theorem tabulate_getElem {α : Type} (size : Nat) (f : Fin size → α) (i : Nat) (h : i < size) :
    (tabulate size f)[i] = f ⟨i, h⟩ := by
  simp [tabulate]

/-- An entry of the built table is the value the rules give it. -/
@[simp] theorem lookup_buildTable (k : BitVec 3) (n : Byte) : lookup buildTable k n = tableValue k.toNat n := by
  simp [lookup, buildTable]

theorem xor_xor_cancel (p a b : Word) : a ^^^ p ^^^ (b ^^^ p) = a ^^^ b := by
  calc a ^^^ p ^^^ (b ^^^ p) = a ^^^ b ^^^ (p ^^^ p) := by ac_rfl
    _ = a ^^^ b := by simp

theorem crcBitStep_xor (a b : Word) : crcBitStep (a ^^^ b) = crcBitStep a ^^^ crcBitStep b := by
  unfold crcBitStep
  rw [BitVec.getLsbD_xor, BitVec.ushiftRight_xor_distrib]
  cases a.getLsbD 0 <;> cases b.getLsbD 0
  · rfl
  · exact BitVec.xor_assoc _ _ _
  · change a >>> 1 ^^^ b >>> 1 ^^^ Config.poly = a >>> 1 ^^^ Config.poly ^^^ b >>> 1
    ac_rfl
  · exact (xor_xor_cancel _ _ _).symm

@[simp] theorem crcBitStep_zero : crcBitStep 0 = 0 := by decide

/-- The bit step is linear over GF(2), any number of times. -/
theorem bitSteps_xor (j : Nat) (a b : Word) : bitSteps j (a ^^^ b) = bitSteps j a ^^^ bitSteps j b := by
  induction j generalizing a b with
  | zero => rfl
  | succ j ih => simp only [bitSteps, crcBitStep_xor, ih]

@[simp] theorem bitSteps_zero (j : Nat) : bitSteps j 0 = 0 := by
  induction j with
  | zero => rfl
  | succ j ih => simp only [bitSteps, crcBitStep_zero, ih]

theorem bitSteps_add (j k : Nat) (c : Word) : bitSteps (j + k) c = bitSteps k (bitSteps j c) := by
  induction j generalizing c with
  | zero => simp [bitSteps]
  | succ j ih => rw [Nat.succ_add]; exact ih (crcBitStep c)

theorem crcBitStep_of_even (c : Word) (h : c.getLsbD 0 = false) : crcBitStep c = c >>> 1 := by
  rw [crcBitStep, h, if_neg Bool.false_ne_true]

/-- Bits that do not reach bit 0 within `j` steps are only shifted. -/
theorem bitSteps_of_low_zero (j : Nat) (c : Word) (h : ∀ i < j, c.getLsbD i = false) : bitSteps j c = c >>> j := by
  induction j generalizing c with
  | zero => simp [bitSteps]
  | succ j ih =>
    simp only [bitSteps]
    rw [crcBitStep_of_even c (h 0 (by omega)), ih, ← BitVec.shiftRight_add, Nat.add_comm]
    intro i hi
    rw [BitVec.getLsbD_ushiftRight]
    exact h (1 + i) (by omega)

/-- A word is its low `j` bits and the rest. -/
theorem low_xor_high (v : Word) (j : Nat) : (v.extractLsb' 0 j).setWidth 32 ^^^ (v >>> j <<< j) = v := by
  apply BitVec.eq_of_getLsbD_eq
  intro i hi
  simp only [BitVec.getLsbD_xor, BitVec.getLsbD_setWidth, BitVec.getLsbD_extractLsb', BitVec.getLsbD_shiftLeft,
    BitVec.getLsbD_ushiftRight, hi, decide_true, Bool.true_and, Nat.zero_add]
  by_cases hj : i < j
  · simp [hj]
  · simp only [hj, decide_false, Bool.false_and, Bool.false_xor, Bool.not_false, Bool.true_and]
    congr 1
    omega

theorem shift_shift_cancel (v : Word) (j : Nat) : (v >>> j <<< j) >>> j = v >>> j := by
  apply BitVec.eq_of_getLsbD_eq
  intro i hi
  simp only [BitVec.getLsbD_shiftLeft, BitVec.getLsbD_ushiftRight]
  by_cases hj : j + i < 32
  · simp [hj]
  · simp only [hj, decide_false, Bool.false_and]
    exact (BitVec.getLsbD_of_ge v _ (by omega)).symm

/-- Eight bit steps are one lookup in set 0 and a shift. -/
theorem bitSteps_eight (v : Word) : bitSteps 8 v = tableSet0 (v.extractLsb' 0 8) ^^^ (v >>> 8) := by
  conv_lhs => rw [← low_xor_high v 8]
  rw [bitSteps_xor, bitSteps_of_low_zero 8 (v >>> 8 <<< 8), shift_shift_cancel]
  · rfl
  · intro i hi
    simp [BitVec.getLsbD_shiftLeft, hi]

/-- Set `k` is the effect of a byte and then `k` zero bytes (R131). -/
theorem tableSetLow_eq_bitSteps (k : Nat) (n : Byte) : tableSetLow k n = bitSteps (8 * (k + 1)) (n.setWidth 32) := by
  induction k with
  | zero => rfl
  | succ k ih => rw [tableSetLow, ← bitSteps_eight, ih, ← bitSteps_add]; rfl

/-- One step of the fold that `gf2_times` is. -/
theorem gf2Fold_xor (m : BitMatrix) (l : List (Fin 32)) (u v x y : Word) :
    l.foldl (fun sum i => if (u ^^^ v)[i] then sum ^^^ m[i] else sum) (x ^^^ y) =
      l.foldl (fun sum i => if u[i] then sum ^^^ m[i] else sum) x ^^^
        l.foldl (fun sum i => if v[i] then sum ^^^ m[i] else sum) y := by
  induction l generalizing x y with
  | nil => rfl
  | cons i l ih =>
    simp only [List.foldl_cons]
    rw [← ih]
    congr 1
    simp only [Fin.getElem_fin, BitVec.getElem_xor]
    cases u[i.val] <;> cases v[i.val]
    · rfl
    · exact BitVec.xor_assoc _ _ _
    · change x ^^^ y ^^^ m[i.val] = x ^^^ m[i.val] ^^^ y
      ac_rfl
    · exact (xor_xor_cancel _ _ _).symm

end Sys2Proof.Machine
end

