-- ==== Sys2Proof/Laws/Ops.lean ====
section
/-!
SUPPORT. What each shared operation can do, said once: register access, the table a reader sees, the length test, the host's
actions, and the cases of a step.
-/

namespace Sys2Proof.Machine

/-! Registers -/

theorem writeReg_tbl (r : Reg) (v : Word) (s : State) : (writeReg r v s).tbl = s.tbl := by cases r <;> rfl
theorem writeReg_be (r : Reg) (v : Word) (s : State) : (writeReg r v s).be = s.be := by cases r <;> rfl
theorem writeReg_tblEager (r : Reg) (v : Word) (s : State) : (writeReg r v s).tblEager = s.tblEager := by
  cases r <;> rfl
theorem writeReg_responses (r : Reg) (v : Word) (s : State) : (writeReg r v s).responses = s.responses := by
  cases r <;> rfl
theorem writeReg_busy (r : Reg) (v : Word) (s : State) : (writeReg r v s).busy = s.busy := by cases r <;> rfl
theorem writeReg_scratch (r : Reg) (v : Word) (s : State) : (writeReg r v s).scratch = s.scratch := by cases r <;> rfl
theorem writeReg_mem (r : Reg) (v : Word) (s : State) : (writeReg r v s).mem = s.mem := by cases r <;> rfl
theorem writeReg_inputs (r : Reg) (v : Word) (s : State) : (writeReg r v s).inputs = s.inputs := by cases r <;> rfl
theorem writeReg_freeIdx (r : Reg) (v : Word) (s : State) : (writeReg r v s).freeIdx = s.freeIdx := by cases r <;> rfl

/-- `STATUS.ILL` changes only by the write that is illegal (R120). -/
theorem writeReg_ill (r : Reg) (v : Word) (s : State) (h : r ≠ .status) : (writeReg r v s).ill = s.ill := by
  cases r <;> first | rfl | exact absurd rfl h

/-! The table -/

theorem currentTable_of_built {s : State} {t : Table} (h : s.tbl = some t) : currentTable s = t := by
  simp only [currentTable, h]

theorem currentTable_of_absent {s : State} (h : s.tbl = none) : currentTable s = buildTable := by
  simp only [currentTable, h]

/-- Where the table is absent or right, every reader sees the table of the rules. -/
theorem currentTable_of_ok {s : State} (h : TableOk s) : currentTable s = buildTable :=
  h.elim currentTable_of_absent currentTable_of_built

@[simp] theorem currentTable_ensureTable (s : State) : currentTable (ensureTable s) = currentTable s := rfl

/-- `ensure_table()` does nothing where the table is built (R134). -/
theorem ensureTable_of_built {s : State} {t : Table} (h : s.tbl = some t) : ensureTable s = s := by
  rw [ensureTable, currentTable_of_built h, ← h]

theorem tableOk_ensureTable {s : State} (h : TableOk s) : TableOk (ensureTable s) :=
  .inr (by rw [ensureTable_tbl, currentTable_of_ok h])

/-! The length of a combine -/

/-- The sign test, on integers (R204). -/
theorem lengthPositive_iff (len : BitVec 64) : lengthPositive len = true ↔ 0 < len.toInt := by
  simp [lengthPositive, BitVec.slt]

/-- The sign of `LEN` is the sign of its extension (R208). -/
theorem comb32Length_toInt (s : State) : (comb32Length s).toInt = s.len.toInt :=
  BitVec.toInt_signExtend_of_le (by omega)

theorem combine_of_not_positive {len : BitVec 64} (s : State) (h : len.toInt ≤ 0) : combine len s = s := by
  rw [combine, if_neg (by rw [lengthPositive_iff]; omega)]

theorem combine_of_positive {len : BitVec 64} (s : State) (h : 0 < len.toInt) :
    combine len s = spoilCombiner { s with crc := combineShift len s.crc ^^^ s.crcb } := by
  rw [combine, if_pos ((lengthPositive_iff len).mpr h), writeReg_crc]

/-! A step -/

@[simp] theorem finishOutcome_next (s : State) : finishOutcome (.next s) = .next (finishCommand s) := rfl

theorem presentWord_of_ready (cw : CmdWord) (rest : List HostAction) {s : State} (h : s.busy = false) :
    presentWord cw rest s = finishOutcome (runWord cw (acceptWord rest s)) := by
  rw [presentWord, h, if_neg Bool.false_ne_true]

theorem presentWord_of_busy (cw : CmdWord) (rest : List HostAction) {s : State} (h : s.busy = true) :
    presentWord cw rest s = .next s := by
  rw [presentWord, h, if_pos rfl]

theorem runWord_of_command {cw : CmdWord} {i : Instr} (s : State) (h : decode cw = .ok i) : runWord cw s = exec i s := by
  simp only [runWord, h]

theorem runWord_of_illegal {cw : CmdWord} {c : IllegalCause} (s : State) (h : decode cw = .error c) :
    runWord cw s = .next (raiseIllegal s) := by
  simp only [runWord, h]

/-- Everything a completed command word can have done: the effect of its command, or Illegal. -/
theorem finish_runWord_cases {cw : CmdWord} {s t : State} (h : finishOutcome (runWord cw s) = .next t) :
    (∃ i u, decode cw = .ok i ∧ exec i s = .next u ∧ t = finishCommand u) ∨
      (∃ c, decode cw = .error c ∧ t = finishCommand (raiseIllegal s)) := by
  cases hd : decode cw with
  | ok i =>
    rw [runWord_of_command s hd] at h
    cases hu : exec i s with
    | next u =>
      rw [hu, finishOutcome_next] at h
      exact .inl ⟨i, u, rfl, hu, (Host.Outcome.next.inj h).symm⟩
    | fault f => nomatch f
    | refused r => rw [hu] at h; exact nomatch h
  | error c =>
    rw [runWord_of_illegal s hd, finishOutcome_next] at h
    exact .inr ⟨c, rfl, (Host.Outcome.next.inj h).symm⟩

/-- Everything a step can be: nothing to do, a host that waits at a busy port, a command word, or one of the host's other
actions. -/
theorem step_cases {s t : State} (h : step s = .next t) :
    (s.inputs = [] ∧ t = s) ∨
      (∃ cw rest, s.inputs = .present cw :: rest ∧ s.busy = true ∧ t = s) ∨
      (∃ cw rest, s.inputs = .present cw :: rest ∧ s.busy = false ∧
        finishOutcome (runWord cw (acceptWord rest s)) = .next t) ∨
      (∃ rest, s.inputs = .takeResponse :: rest ∧ t = takeResponse rest s) ∨
      (∃ a b rest, s.inputs = .store a b :: rest ∧ t = hostStore a b rest s) ∨
      (∃ be rest, s.inputs = .reset be :: rest ∧ t = hostReset be rest s) := by
  rw [step, hostAction] at h
  split at h
  · exact .inl ⟨by assumption, (Host.Outcome.next.inj h).symm⟩
  · rename_i cw rest hi
    cases hb : s.busy with
    | true =>
      rw [presentWord_of_busy cw rest hb] at h
      exact .inr (.inl ⟨cw, rest, hi, rfl, (Host.Outcome.next.inj h).symm⟩)
    | false =>
      rw [presentWord_of_ready cw rest hb] at h
      exact .inr (.inr (.inl ⟨cw, rest, hi, rfl, h⟩))
  · exact .inr (.inr (.inr (.inl ⟨_, by assumption, (Host.Outcome.next.inj h).symm⟩)))
  · exact .inr (.inr (.inr (.inr (.inl ⟨_, _, _, by assumption, (Host.Outcome.next.inj h).symm⟩))))
  · exact .inr (.inr (.inr (.inr (.inr ⟨_, _, by assumption, (Host.Outcome.next.inj h).symm⟩))))

end Sys2Proof.Machine
end

