-- ==== Sys2Proof/Laws/PerInstr.lean ====
section
/-!
SUPPORT. One lemma for each constructor of `Instr`. Family EncodeRow: the word of a command has the opcode and the fixed
bits of its row in R94 of 30_encoding.md.
-/

namespace Sys2Proof.Laws.EncodeRow

/-- The mask of a command's row, as R94 prints it. -/
def mask : Instr → CmdWord
  | .wr _ _ => 0xFFFFFFF000000000
  | .rd _ => 0xFFFFFFF0FFFFFFFF
  | .tbuild => 0xFFFFFFFFFFFFFFFF
  | .trd _ _ => 0xFFFFF800FFFFFFFF
  | .stepb _ => 0xFFFFFFFFFFFFFF00
  | .stepw _ => 0xFFFFFFFF00000000
  | .update => 0xFFFFFFFEFFFFFFFF
  | .updateNb => 0xFFFFFFFEFFFFFFFF
  | .comb32 => 0xFFFFFFFFFFFFFFFF
  | .comb64 => 0xFFFFFFFFFFFFFFFF

/-- The match value of a command's row, as R94 prints it. -/
def fixed : Instr → CmdWord
  | .wr _ _ => 0x0100000000000000
  | .rd _ => 0x0200000000000000
  | .tbuild => 0x1000000000000000
  | .trd _ _ => 0x1100000000000000
  | .stepb _ => 0x2000000000000000
  | .stepw _ => 0x2100000000000000
  | .update => 0x3000000000000000
  | .updateNb => 0x3000000000000000
  | .comb32 => 0x4000000000000000
  | .comb64 => 0x4100000000000000

/-- The word of a command matches its row. -/
def Statement (i : Instr) : Prop := encode i &&& mask i = fixed i

/-- A word whose bits outside the mask are its operands matches. -/
theorem and_cmdWord (op : BitVec 8) (fn fn' : BitVec 24) (imm imm' : Word) :
    cmdWord op fn imm &&& cmdWord 0xFF fn' imm' = cmdWord op (fn &&& fn') (imm &&& imm') := by
  apply BitVec.eq_of_getLsbD_eq
  intro i hi
  simp only [BitVec.getLsbD_and, getLsbD_cmdWord]
  split_ifs
  · rfl
  · rfl
  · have h : BitVec.getLsbD (0xFF : BitVec 8) (i - 56) = true := by
      have h' : ∀ j < 8, BitVec.getLsbD (0xFF : BitVec 8) j = true := by decide
      exact h' _ (by omega)
    rw [h, Bool.and_true]

theorem wr (r : Reg) (d : Word) : Statement (.wr r d) := by
  change cmdWord _ _ _ &&& cmdWord 0xFF 0xFFFFF0 0 = cmdWord 0x01 0 0
  rw [and_cmdWord]
  cases r <;> simp [regIndex]

theorem rd (r : Reg) : Statement (.rd r) := by cases r <;> rfl

theorem tbuild : Statement .tbuild := rfl

theorem trd (k : BitVec 3) (n : Byte) : Statement (.trd k n) := by
  change cmdWord _ _ _ &&& cmdWord 0xFF 0xFFF800 0xFFFFFFFF = cmdWord 0x11 0 0
  rw [and_cmdWord]
  congr 1
  apply BitVec.eq_of_getLsbD_eq
  intro i hi
  interval_cases i <;> simp

theorem stepb (imm8 : Byte) : Statement (.stepb imm8) := by
  change cmdWord _ _ _ &&& cmdWord 0xFF 0xFFFFFF 0xFFFFFF00 = cmdWord 0x20 0 0
  rw [and_cmdWord]
  congr 1
  apply BitVec.eq_of_getLsbD_eq
  intro i hi
  interval_cases i <;> simp

theorem stepw (w : Word) : Statement (.stepw w) := by
  change cmdWord _ _ _ &&& cmdWord 0xFF 0xFFFFFF 0 = cmdWord 0x21 0 0
  rw [and_cmdWord]
  simp

theorem update : Statement .update := rfl

theorem updateNb : Statement .updateNb := rfl

theorem comb32 : Statement .comb32 := rfl

theorem comb64 : Statement .comb64 := rfl

end Sys2Proof.Laws.EncodeRow
end

