-- ==== Sys2Proof/Tests/Slice0.lean ====
section
/-!
SUPPORT. Checks of our own work: ill-formed terms, words written out from the encodings, one step for each command with
the values of 95_test_vectors.md, and, for each statement with hypotheses, a state that meets them all.
-/

namespace Sys2Proof.Tests

-- one kernel check at a time: many at once reserve more memory than the sandbox grants
set_option Elab.async false

open Sys2Proof.Machine

/-- Whether a step or a command answered a next state with a property. -/
def answers (o : Host.Outcome State Fault Refusal) (p : State → Bool) : Bool :=
  match o with
  | .next s => p s
  | .fault _ => false
  | .refused _ => false

/-! Well-formedness: the one check refuses what it is for, and the same command on the register before it passes. -/

theorem test_wf_refuses_wr_status : (Instr.wr .status 0).wf = false := by decide
theorem test_wf_accepts_wr_ctrl : (Instr.wr .ctrl 0).wf = true := by decide

/-! Decoding: bits written out from R92, most significant first, `op` and then `fn` and `imm32`. -/

theorem test_decode_wr :
    decode 0b00000001_000000000000000000000010_00000000000000000001000000000001#64 = .ok (.wr .addr 0x1001) := by decide
theorem test_decode_rd :
    decode 0b00000010_000000000000000000000111_00000000000000000000000000000000#64 = .ok (.rd .status) := by decide
theorem test_decode_tbuild :
    decode 0b00010000_000000000000000000000000_00000000000000000000000000000000#64 = .ok .tbuild := by decide
theorem test_decode_trd :
    decode 0b00010001_000000000000011111111110_00000000000000000000000000000000#64 = .ok (.trd 7 0xFE) := by decide
theorem test_decode_stepb :
    decode 0b00100000_000000000000000000000000_00000000000000000000000011111110#64 = .ok (.stepb 0xFE) := by decide
theorem test_decode_stepw :
    decode 0b00100001_000000000000000000000000_00110100001100110011001000110001#64 = .ok (.stepw 0x34333231) := by decide
theorem test_decode_update :
    decode 0b00110000_000000000000000000000001_00000000000000000000000000000000#64 = .ok .update := by decide
theorem test_decode_updateNb :
    decode 0b00110000_000000000000000000000000_00000000000000000000000000000000#64 = .ok .updateNb := by decide
theorem test_decode_comb32 :
    decode 0b01000000_000000000000000000000000_00000000000000000000000000000000#64 = .ok .comb32 := by decide
theorem test_decode_comb64 :
    decode 0b01000001_000000000000000000000000_00000000000000000000000000000000#64 = .ok .comb64 := by decide

/-- 95_test_vectors.md, the decode vectors of all four causes. -/
theorem test_decode_illegal :
    decode 0x0100000700000000 = .error .readOnlyRegister ∧ decode 0x0100000800000000 = .error .noSuchRegister ∧
      decode 0x0200000F00000000 = .error .noSuchRegister ∧ decode 0x0200000000000001 = .error .reservedBit ∧
      decode 0x1100080000000000 = .error .reservedBit ∧ decode 0x2000000000000100 = .error .reservedBit ∧
      decode 0x3000000200000000 = .error .reservedBit ∧ decode 0x4200000000000000 = .error .undefinedOpcode ∧
      decode 0x0000000000000000 = .error .undefinedOpcode := by decide

/-- A row of the table as a number, and a shorter row whose bits above are zero. -/
theorem test_decode_table_word :
    decodeTableWord 64 0x110007FF00000000 = some (.trd 7 0xFF) ∧ decodeTableWord 8 0x1000000000000001 = none := by decide

/-! One step for each command -/

/-- V5's register `ACC` = 0xFFFFFFFF on an engine of either byte order. -/
def stepping (bigEndian : Bool) : State :=
  { State.resetWith { bigEndian := bigEndian, tblEager := false } with acc := 0xFFFFFFFF }

/-- "123456789" at `a` (95_test_vectors.md V7). -/
def digitsAt (a : Word) : Memory :=
  (List.range 9).foldl (fun m i => m.write (a + BitVec.ofNat 32 i) (BitVec.ofNat 8 (0x31 + i))) []

/-- V7: the digits at an address that wraps. -/
def updating (wordEn bigEndian : Bool) : State :=
  { State.resetWith { bigEndian := bigEndian, tblEager := false } with
    wordEn := wordEn, addr := 0xFFFFFFFE, len := 9, mem := digitsAt 0xFFFFFFFE }

/-- V8's operands. -/
def combining (len lenh : Word) : State :=
  { State.reset with crc := 0x12345678, crcb := 0x9ABCDEF0, len := len, lenh := lenh }

/-- R120's example. -/
theorem test_wr_addr : answers (step (State.reset.withFetchWord 64 0x0100000200001001)) (·.addr == 0x1001) = true := by
  decide
/-- R122's example. -/
theorem test_wr_ctrl :
    answers (step (State.reset.withFetchWord 64 0x01000006FFFFFFFF)) (fun t => ctrlWord t == 1) = true := by decide
/-- R123's examples: a big-endian engine out of reset, and a little-endian one after an illegal command. -/
theorem test_rd_status :
    answers (exec (.rd .status) (stepping true)) (·.responses == [2]) = true ∧
      answers (exec (.rd .status) (raiseIllegal State.reset)) (·.responses == [4]) = true := by decide
/-- P4, command 20: an illegal word where a response might be awaited. -/
theorem test_illegal_rd :
    answers (step (State.reset.withFetchWord 64 0x0200000800000000))
      (fun t => t.ill && t.responses == [] && t.tbl.isNone && !t.busy) = true := by decide
/-- R136's example. -/
theorem test_tbuild : answers (exec .tbuild State.reset) (fun t => statusWord t == 1) = true := by decide
/-- R137's examples, V3. -/
theorem test_trd :
    answers (exec (.trd 0 1) State.reset) (·.responses == [0x77073096]) = true ∧
      answers (exec (.trd 7 0xFF) State.reset) (·.responses == [0xF10605DE]) = true := by decide +kernel
/-- R151's example. -/
theorem test_stepb : answers (exec (.stepb 0x31) (stepping false)) (·.acc == 0x7C231048) = true := by decide +kernel
/-- R163's examples, both byte orders, and V5's wrong packing. -/
theorem test_stepw :
    answers (exec (.stepw 0x34333231) (stepping false)) (·.acc == 0x641C1F5C) = true ∧
      answers (exec (.stepw 0x31323334) (stepping true)) (·.acc == 0x641C1F5C) = true ∧
      answers (exec (.stepw 0x31323334) (stepping false)) (·.acc == 0x3B714097) = true := by decide +kernel
/-- V7's wrap-around, word-wise. -/
theorem test_update_words :
    answers (exec .update (updating true true)) (fun t => t.crc == 0xCBF43926 && t.acc == 0x340BC6D9) = true := by
  decide +kernel
/-- V7's wrap-around, byte-wise. -/
theorem test_update_bytes :
    answers (exec .update (updating false false)) (fun t => t.crc == 0xCBF43926 && t.addr == 0xFFFFFFFE) = true := by
  decide +kernel
/-- R67's example of the reads. -/
theorem test_update_reads :
    updateReads true 9 0xFFFFFFFE =
      [.byte 0xFFFFFFFE, .byte 0xFFFFFFFF, .word 0, .byte 4, .byte 5, .byte 6] := by decide
/-- R171's example. -/
theorem test_updateNb :
    answers (exec .updateNb (combining 5 0)) (fun t => t.crc == 0 && t.tbl.isNone && t.crcb == 0x9ABCDEF0) = true := by
  decide
/-- V8: `LEN` = 5 with the sign bits of `LENH` set, which COMB32 ignores. -/
theorem test_comb32 : answers (exec .comb32 (combining 5 0xFFFFFFFF)) (·.crc == 0xE6EE181F) = true := by decide +kernel
/-- V8: -2^31 for COMB32 changes nothing. -/
theorem test_comb32_negative : answers (exec .comb32 (combining 0x80000000 0)) (·.crc == 0x12345678) = true := by decide
/-- V8's row of length 2 (its rows of `COMB64` alone need 32 squarings, too many for a test). -/
theorem test_comb64 : answers (exec .comb64 (combining 2 0)) (·.crc == 0xFF52CBFB) = true := by decide +kernel
/-- V8: `LENH` = 0xFFFFFFFF, which COMB64 does not ignore, changes nothing. -/
theorem test_comb64_negative : answers (exec .comb64 (combining 5 0xFFFFFFFF)) (·.crc == 0x12345678) = true := by decide
/-- V9, row 0 of `Z(2)`. -/
theorem test_square : (gf2Square zeroBitMatrix)[0] = 0x76DC4190 := by decide +kernel

/-! Witnesses: for each statement with hypotheses, or for each of its clauses, a state that meets them all. -/

/-- An engine out of reset whose host does one thing, and then presents `TBUILD`. -/
def hosted (a : HostAction) : State := { State.reset with inputs := [a, .present 0x1000000000000000] }

theorem hosted_noReset_present (cw : CmdWord) : NoReset (hosted (.present cw)) := nofun

/-- A built table, as after `TBUILD`. -/
def built (be : Bool) : State := { stepping be with tbl := some buildTable }

/-- "123456789" at `a`, word-wise or not, the table absent. -/
def buffered (wordEn : Bool) (a len : Word) : State :=
  { State.reset with wordEn := wordEn, addr := a, len := len, mem := digitsAt a }

theorem witness_DecodeOfEncodedCommand : (Instr.wr .ctrl 0xFFFFFFFF).wf = true := by decide

theorem witness_DecodedWordIsItsEncoding : decode 0x110007FF00000000 = .ok (.trd 7 0xFF) := by decide

/-- One word of each kind a to d (R97), with both ends of the range of `r` for c. -/
theorem witness_IllegalWordsSetOnlyIll :
    IllegalWord 0x4200000000000000 ∧ IllegalWord 0x2000000000000100 ∧ IllegalWord 0x0200000800000000 ∧
      IllegalWord 0x0100000F00000000 ∧ IllegalWord 0x0100000700000000 ∧
      (hosted (.present 0x4200000000000000)).busy = false ∧
      (hosted (.present 0x4200000000000000)).inputs = .present 0x4200000000000000 :: [.present 0x1000000000000000] :=
  ⟨.inl (by decide), .inr (.inl (by decide)), .inr (.inr (.inl (by decide))), .inr (.inr (.inl (by decide))),
    .inr (.inr (.inr (by decide))), rfl, rfl⟩

theorem witness_StepRunsDecodedCommand :
    (hosted (.present 0x2000000000000031)).busy = false ∧
      (hosted (.present 0x2000000000000031)).inputs = .present 0x2000000000000031 :: [.present 0x1000000000000000] ∧
      decode 0x2000000000000031 = .ok (.stepb 0x31) := by decide

theorem witness_PlacedWordRunsNext : decodeTableWord 64 0x2000000000000031 = some (.stepb 0x31) := by decide

/-- Both clauses, the second at a busy port. -/
theorem witness_WordAcceptedExactlyWhenNotBusy :
    (hosted (.present 0)).inputs = .present 0 :: [.present 0x1000000000000000] ∧ (hosted (.present 0)).busy = false ∧
      { hosted (.present 0) with busy := true }.busy = true := by decide

theorem witness_IdleStepChangesNothing : State.reset.inputs = [] := rfl

/-- Both clauses. -/
theorem witness_ResponsesAreTakenInOrder :
    (hosted .takeResponse).inputs = .takeResponse :: [.present 0x1000000000000000] ∧
      { hosted .takeResponse with responses := [1, 2] }.responses = 1 :: [2] ∧ (hosted .takeResponse).responses = [] := by
  decide

theorem inv_hosted (a : HostAction) : (hosted a).Inv := ⟨⟨List.Pairwise.nil, nofun⟩, .inl rfl, nofun, rfl⟩

theorem witness_HostStoreChangesOneByte :
    (hosted (.store 0xFFFFFFFF 0)).Inv ∧
      (hosted (.store 0xFFFFFFFF 0)).inputs = .store 0xFFFFFFFF 0 :: [.present 0x1000000000000000] :=
  ⟨inv_hosted _, rfl⟩

/-- Also during a command. -/
theorem witness_HostResetRestoresResetValues :
    { hosted (.reset true) with busy := true }.inputs = .reset true :: [.present 0x1000000000000000] := rfl

theorem witness_EveryStepKeepsInvariant :
    (hosted (.store 0 0xFF)).Inv ∧
      step (hosted (.store 0 0xFF)) = .next { State.reset with
        mem := [(0, 0xFF)], inputs := [.present 0x1000000000000000] } :=
  ⟨inv_hosted _, rfl⟩

theorem witness_IllIsStickyAndOnlyIllegalWordsSetIt :
    NoReset (hosted (.present 0)) ∧
      step (hosted (.present 0)) = .next { State.reset with ill := true, inputs := [.present 0x1000000000000000] } :=
  ⟨hosted_noReset_present _, rfl⟩

theorem witness_BuiltTableNeverChanges :
    (built true).tbl = some buildTable ∧ NoReset (built true) ∧ step (built true) = .next (built true) :=
  ⟨rfl, nofun, rfl⟩

/-- Both clauses. -/
theorem witness_CommandsWriteNoMemory :
    exec .updateNb (combining 0 0) = .next { combining 0 0 with crc := 0 } ∧
      (hosted (.present 0)).inputs = .present 0 :: [.present 0x1000000000000000] ∧
      step (hosted (.present 0)) = .next { State.reset with ill := true, inputs := [.present 0x1000000000000000] } :=
  ⟨rfl, rfl, rfl⟩

/-- The step of each clause: one that is no reset, and a reset with the strap at the other level. -/
theorem witness_StrapHoldsUntilReset :
    (NoReset State.reset ∧ step State.reset = .next State.reset) ∧
      (hosted (.reset true)).inputs = .reset true :: [.present 0x1000000000000000] ∧
      ∃ t, step (hosted (.reset true)) = .next t :=
  ⟨⟨nofun, rfl⟩, rfl, _, rfl⟩

theorem witness_OnlyNamedCommandsWriteEachRegister :
    exec .updateNb (combining 5 0) = .next { combining 5 0 with crc := 0 } ∧ (∀ r d, Instr.updateNb ≠ .wr r d) ∧
      exec .tbuild (built true) = .next (built true) ∧ (∀ r d, Instr.tbuild ≠ .wr r d) :=
  ⟨rfl, nofun, rfl, nofun⟩

/-- Both clauses: `RD`, `TRD`, and a command that responds nothing. -/
theorem witness_OnlyRdAndTrdRespond :
    (∃ r, Instr.rd .crc = .rd r) ∧ (∃ k n, Instr.trd 7 0xFF = .trd k n) ∧
      (∀ r, Instr.stepb 0 ≠ .rd r) ∧ (∀ k n, Instr.stepb 0 ≠ .trd k n) :=
  ⟨⟨_, rfl⟩, ⟨_, _, rfl⟩, nofun, nofun⟩

/-- Both clauses, with `UPDATE` on either side by its length. -/
theorem witness_WhichCommandsBuildTheTable :
    State.reset.tbl = none ∧ (buffered true 0 1).tbl = none ∧ UsesTable .update (buffered true 0 1) ∧
      ¬ UsesTable .update State.reset := by
  refine ⟨rfl, rfl, .inr (.inr (.inr (.inr ⟨rfl, by decide⟩))), ?_⟩
  simp [UsesTable, State.reset, State.resetWith]

theorem witness_HiddenStorageIsUnobservable : step State.reset = .next State.reset := rfl

theorem witness_ReadBackAfterWrite : Reg.ctrl ≠ .status ∧ Reg.acc ≠ .ctrl := by decide

/-- The premise of the statements about the table: absent, and built. -/
theorem witness_TableOk : TableOk State.reset ∧ TableOk (built true) ∧ TableOk (built false) :=
  ⟨.inl rfl, .inr rfl, .inr rfl⟩

/-- Both cases of the table and both byte orders. -/
theorem witness_StepLooksUp :
    ((built true).tbl = some buildTable ∧ (built true).be = true) ∧
      ((stepping false).tbl = none ∧ buildTable = buildTable ∧ (stepping false).be = false) :=
  ⟨⟨rfl, rfl⟩, rfl, rfl, rfl⟩

theorem witness_StepwEqualsFourStepb :
    TableOk (built true) ∧ (built true).be = true ∧ TableOk (stepping false) ∧ (stepping false).be = false :=
  ⟨.inr rfl, rfl, .inl rfl, rfl⟩

theorem witness_AbsentOrEmptyBufferClearsCrc : (combining 0 0).len = 0 := rfl

/-- The shortest and the longest buffer, and one from `CRC` = 0. -/
theorem witness_UpdateFoldsTheBuffer :
    TableOk (buffered true 0xFFFFFFFF 1) ∧ (buffered true 0xFFFFFFFF 1).len ≠ 0 ∧
      (buffered true 0xFFFFFFFF 1).crc = 0 ∧ TableOk (combining 0xFFFFFFFF 0) ∧ (combining 0xFFFFFFFF 0).len ≠ 0 :=
  ⟨.inl rfl, by decide, rfl, .inl rfl, by decide⟩

/-- Two strategies and two places, one of them wrapping. -/
theorem witness_StrategyIsNotObservable :
    let s := buffered true 0xFFFFFFFE 9
    let s' := buffered false 0x1001 9
    TableOk s ∧ TableOk s' ∧ s'.crc = s.crc ∧ s'.len = s.len ∧ s.len ≠ 0 ∧
      ∀ i < s.len.toNat, s'.mem.read (s'.addr + BitVec.ofNat 32 i) = s.mem.read (s.addr + BitVec.ofNat 32 i) :=
  ⟨.inl rfl, .inl rfl, rfl, rfl, by decide, by decide +kernel⟩

/-- Two pieces of the least total, and two of the greatest. -/
theorem witness_UpdatesChain :
    TableOk State.reset ∧ State.reset.crc = 0 ∧ (1 : Word) ≠ 0 ∧ (0xFFFFFFFE : Word) ≠ 0 ∧
      (1 : Word).toNat + (1 : Word).toNat < 2 ^ 32 ∧ (1 : Word).toNat + (0xFFFFFFFE : Word).toNat < 2 ^ 32 :=
  ⟨.inl rfl, rfl, by decide, by decide, by decide, by decide⟩

theorem witness_UpdateReadsEachByteOnce :
    (buffered true 0x1001 9).len ≠ 0 ∧ (buffered true 0x1001 9).wordEn = true ∧
      (buffered false 0x1001 9).len ≠ 0 ∧ (buffered false 0x1001 9).wordEn = false := by decide

theorem witness_ReferenceVector :
    TableOk (buffered true 0xFFFFFFFE 9) ∧ (buffered true 0xFFFFFFFE 9).crc = 0 ∧
      (buffered true 0xFFFFFFFE 9).len = 9 ∧
      ∀ i < 9, (buffered true 0xFFFFFFFE 9).mem.read (0xFFFFFFFE + BitVec.ofNat 32 i) = BitVec.ofNat 8 (0x31 + i) :=
  ⟨.inl rfl, rfl, rfl, by decide +kernel⟩

theorem witness_StartingMatrixIsOneZeroBit : 1 ≤ (1 : Fin 32).val ∧ 1 ≤ (31 : Fin 32).val := by decide

/-- The least and the greatest positive length. -/
theorem witness_CombineLoopAppendsZeroBytes :
    0 < (1 : BitVec 64).toInt ∧ 0 < (0x7FFFFFFFFFFFFFFF : BitVec 64).toInt := by decide

/-- Both clauses at the ends of their ranges. -/
theorem witness_Comb32CombinesBySignedLen :
    0 < (combining 1 0).len.toInt ∧ 0 < (combining 0x7FFFFFFF 0).len.toInt ∧ (combining 0 0).len.toInt ≤ 0 ∧
      (combining 0x80000000 0).len.toInt ≤ 0 := by decide

/-- Both clauses at the ends of their ranges. -/
theorem witness_Comb64CombinesBySignedLength :
    0 < ((combining 1 0).lenh ++ (combining 1 0).len).toInt ∧
      0 < ((combining 0xFFFFFFFF 0x7FFFFFFF).lenh ++ (combining 0xFFFFFFFF 0x7FFFFFFF).len).toInt ∧
      ((combining 0 0).lenh ++ (combining 0 0).len).toInt ≤ 0 ∧
      ((combining 0 0x80000000).lenh ++ (combining 0 0x80000000).len).toInt ≤ 0 := by decide

theorem witness_Comb32AndComb64Agree :
    (combining 0x7FFFFFFF 0).lenh = 0 ∧ (combining 0x7FFFFFFF 0).len.getLsbD 31 = false := by decide

theorem witness_CombinerIgnoresTableAndMemory : Instr.comb64 = .comb32 ∨ Instr.comb64 = .comb64 := by decide

/-- A length is the two registers that hold it (R26). -/
theorem halves_append (v : BitVec 64) : v.extractLsb' 32 32 ++ v.extractLsb' 0 32 = v := by
  apply BitVec.eq_of_getLsbD_eq
  intro i hi
  rw [BitVec.getLsbD_append]
  simp only [BitVec.getLsbD_extractLsb']
  split_ifs <;> (rw [decide_eq_true (by omega), Bool.true_and]; congr 1; omega)

/-- `Y` empty, and `Y` of any length that COMB32 takes and that COMB64 takes; the third clause at its ends. -/
theorem witness_CombineGivesTheChecksumOfTheConcatenation :
    (∃ s : State, s.crc = crcOf [0x31] ∧ s.crcb = crcOf [] ∧ (s.lenh ++ s.len).toNat = ([] : List Byte).length ∧
      s.len.toNat = ([] : List Byte).length) ∧
    (∀ n, n < 2 ^ 31 → ∃ (ys : List Byte) (s : State),
      s.crc = crcOf [0x31] ∧ s.crcb = crcOf ys ∧ s.len.toNat = ys.length ∧ ys.length = n) ∧
    (∀ n, n < 2 ^ 63 → ∃ (ys : List Byte) (s : State),
      s.crc = crcOf [0x31] ∧ s.crcb = crcOf ys ∧ (s.lenh ++ s.len).toNat = ys.length ∧ ys.length = n) ∧
    ((0 : Nat) < 1 ∧ 1 < 2 ^ 63) ∧ 0 < 2 ^ 63 - 1 ∧ 2 ^ 63 - 1 < 2 ^ 63 := by
  refine ⟨⟨{ State.reset with crc := crcOf [0x31], crcb := crcOf [] }, rfl, rfl, rfl, rfl⟩, fun n h => ?_, fun n h => ?_,
    by decide⟩
  · refine ⟨List.replicate n 0x32,
      { State.reset with crc := crcOf [0x31], crcb := crcOf (List.replicate n 0x32), len := BitVec.ofNat 32 n },
      rfl, rfl, ?_, List.length_replicate⟩
    rw [List.length_replicate, BitVec.toNat_ofNat, Nat.mod_eq_of_lt (by omega)]
  · refine ⟨List.replicate n 0x32,
      { State.reset with
        crc := crcOf [0x31]
        crcb := crcOf (List.replicate n 0x32)
        lenh := (BitVec.ofNat 64 n).extractLsb' 32 32
        len := (BitVec.ofNat 64 n).extractLsb' 0 32 },
      rfl, rfl, ?_, List.length_replicate⟩
    rw [List.length_replicate, halves_append, BitVec.toNat_ofNat, Nat.mod_eq_of_lt (by omega)]

end Sys2Proof.Tests
end

section
/-!
What a step is where the host does nothing, and where it presents a word at a ready port (R12 in 00_scope.md).
-/

namespace Sys2Proof.Machine

/-- No command faults or is refused, in any state (R230). -/
theorem exists_exec_eq_next (i : Instr) (s : State) : ∃ t, exec i s = .next t := by
  cases i <;> exact ⟨_, rfl⟩

theorem step_of_inputs_nil {s : State} (h : s.inputs = []) : step s = .next s := by
  simp only [step, hostAction, h]

theorem step_of_inputs_present {s : State} {cw : CmdWord} {rest : List HostAction}
    (h : s.inputs = .present cw :: rest) : step s = presentWord cw rest s := by
  simp only [step, hostAction, h]

/-- A word accepted at a ready port that decodes: its command runs with `BUSY` set, and the port is ready again after it
(R45, R90). -/
theorem step_of_present_command {s : State} {cw : CmdWord} {rest : List HostAction} {i : Instr}
    (hidle : s.busy = false) (hin : s.inputs = .present cw :: rest) (hdec : decode cw = .ok i) :
    step s = finishOutcome (exec i (acceptWord rest s)) := by
  rw [step_of_inputs_present hin, presentWord_of_ready cw rest hidle, runWord_of_command _ hdec]

/-- Settles O5: an accepted word is its command's effect, which is always a next state, and then completion. -/
theorem stepRunsDecodedCommand : Obligations.StepRunsDecodedCommand := by
  intro s cw rest i hidle hin hdec
  obtain ⟨t, ht⟩ := exists_exec_eq_next i (acceptWord rest s)
  have hstep : step s = .next (finishCommand t) := by
    rw [step_of_present_command hidle hin hdec, ht, finishOutcome_next]
  exact ⟨t, ht, hstep⟩

/-- Settles O8: with nothing on the host's list the step's first case applies. -/
theorem idleStepChangesNothing : Obligations.IdleStepChangesNothing :=
  fun _ => step_of_inputs_nil

end Sys2Proof.Machine
end

section
/-!
What a command leaves in the state, as a function of the command and the state, and which parts of the state it can
write at all (R12, R21 in the spec). Every command answers a next state, so the function says all that `exec` says.
-/

namespace Sys2Proof.Machine

/-- The state a command leaves. -/
def effect (i : Instr) (s : State) : State :=
  match exec i s with
  | .next t => t
  | .fault _ => s
  | .refused _ => s

theorem exec_eq_next_effect (i : Instr) (s : State) : exec i s = .next (effect i s) := by
  obtain ⟨t, ht⟩ := exists_exec_eq_next i s
  simp only [effect, ht]

theorem eq_effect_of_exec {i : Instr} {s t : State} (h : exec i s = .next t) : t = effect i s :=
  Host.Outcome.next.inj (h.symm.trans (exec_eq_next_effect i s))

section
variable (s : State)

@[simp] theorem effect_wr (r : Reg) (d : Word) : effect (.wr r d) s = writeReg r d s := rfl
@[simp] theorem effect_rd (r : Reg) : effect (.rd r) s = respond (readReg r s) s := rfl
@[simp] theorem effect_tbuild : effect .tbuild s = ensureTable s := rfl
@[simp] theorem effect_trd (k : BitVec 3) (n : Byte) :
    effect (.trd k n) s = respond (lookup (currentTable s) k n) (ensureTable s) := rfl
@[simp] theorem effect_stepb (b : Byte) :
    effect (.stepb b) s = writeReg .acc (byteStep (currentTable s) s.acc b) (ensureTable s) := rfl
@[simp] theorem effect_stepw (w : Word) :
    effect (.stepw w) s = writeReg .acc (wordStep s.be (currentTable s) s.acc w) (ensureTable s) := rfl
@[simp] theorem effect_updateNb : effect .updateNb s = clearCrc s := rfl
@[simp] theorem effect_comb32 : effect .comb32 s = combine (comb32Length s) s := rfl
@[simp] theorem effect_comb64 : effect .comb64 s = combine (comb64Length s) s := rfl

theorem effect_update_of_len_zero (h : s.len = 0) : effect .update s = clearCrc s := if_pos h

theorem effect_update_of_len_ne_zero (h : s.len ≠ 0) : effect .update s = updateBuffer s := if_neg h

end

/-- `UPDATE` is one of two operations (R170, R171). -/
theorem effect_update_cases (s : State) : effect .update s = clearCrc s ∨ effect .update s = updateBuffer s := by
  by_cases h : s.len = 0
  · exact .inl (effect_update_of_len_zero s h)
  · exact .inr (effect_update_of_len_ne_zero s h)

/-- A combine writes nothing, or `CRC` and the hidden storage (R204, R207). -/
theorem combine_cases (len : BitVec 64) (s : State) :
    combine len s = s ∨ combine len s = spoilCombiner { s with crc := combineShift len s.crc ^^^ s.crcb } := by
  rcases le_or_gt len.toInt 0 with h | h
  · exact .inl (combine_of_not_positive s h)
  · exact .inr (combine_of_positive s h)

@[simp] theorem combine_acc (len : BitVec 64) (s : State) : (combine len s).acc = s.acc := by
  rcases combine_cases len s with h | h
  · rw [h]
  · rw [h, spoilCombiner_acc]

@[simp] theorem combine_tbl (len : BitVec 64) (s : State) : (combine len s).tbl = s.tbl := by
  rcases combine_cases len s with h | h
  · rw [h]
  · rw [h, spoilCombiner_tbl]

/-- `t` differs from `s` at most in what commands compute: `CRC`, `ACC`, the table, the responses and the hidden
storage. -/
structure DiffersInResults (s t : State) : Prop where
  crcb : t.crcb = s.crcb
  addr : t.addr = s.addr
  len : t.len = s.len
  lenh : t.lenh = s.lenh
  wordEn : t.wordEn = s.wordEn
  ill : t.ill = s.ill
  be : t.be = s.be
  tblEager : t.tblEager = s.tblEager
  busy : t.busy = s.busy
  mem : t.mem = s.mem
  inputs : t.inputs = s.inputs

theorem combine_differsInResults (len : BitVec 64) (s : State) : DiffersInResults s (combine len s) := by
  rcases combine_cases len s with h | h <;> rw [h] <;> constructor <;> rfl

/-- What the commands other than `WR` can write, said once for all of them (R21). -/
theorem effect_differsInResults {i : Instr} (s : State) (h : ∀ r d, i ≠ .wr r d) :
    DiffersInResults s (effect i s) := by
  cases i with
  | wr r d => exact absurd rfl (h r d)
  | update => rcases effect_update_cases s with h | h <;> rw [h] <;> constructor <;> rfl
  | comb32 => exact combine_differsInResults _ s
  | comb64 => exact combine_differsInResults _ s
  | rd | tbuild | trd | stepb | stepw | updateNb => constructor <;> rfl

/-- A command is a `WR`, or it writes results only. -/
theorem effect_cases (i : Instr) (s : State) : (∃ r d, i = .wr r d) ∨ DiffersInResults s (effect i s) := by
  by_cases h : ∃ r d, i = .wr r d
  · exact .inl h
  · exact .inr (effect_differsInResults s fun r d hi => h ⟨r, d, hi⟩)

@[simp] theorem effect_mem (i : Instr) (s : State) : (effect i s).mem = s.mem := by
  obtain ⟨r, d, rfl⟩ | h := effect_cases i s
  · exact writeReg_mem r d s
  · exact h.mem

@[simp] theorem effect_be (i : Instr) (s : State) : (effect i s).be = s.be := by
  obtain ⟨r, d, rfl⟩ | h := effect_cases i s
  · exact writeReg_be r d s
  · exact h.be

@[simp] theorem effect_tblEager (i : Instr) (s : State) : (effect i s).tblEager = s.tblEager := by
  obtain ⟨r, d, rfl⟩ | h := effect_cases i s
  · exact writeReg_tblEager r d s
  · exact h.tblEager

/-- No legal command touches `STATUS.ILL` (R32). -/
theorem effect_ill {i : Instr} (s : State) (hwf : i.wf = true) : (effect i s).ill = s.ill := by
  obtain ⟨r, d, rfl⟩ | h := effect_cases i s
  · exact writeReg_ill r d s (bne_iff_ne.mp hwf)
  · exact h.ill

/-- A command leaves the table alone, or runs `ensure_table()` (R139). -/
theorem effect_tbl_cases (i : Instr) (s : State) :
    (effect i s).tbl = s.tbl ∨ (effect i s).tbl = some (currentTable s) := by
  cases i with
  | wr r d => exact .inl (writeReg_tbl r d s)
  | rd r => exact .inl rfl
  | tbuild => exact .inr rfl
  | trd k n => exact .inr rfl
  | stepb b => exact .inr rfl
  | stepw w => exact .inr rfl
  | update =>
    rcases effect_update_cases s with h | h
    · exact .inl (by rw [h]; rfl)
    · exact .inr (by rw [h]; rfl)
  | updateNb => exact .inl rfl
  | comb32 => exact .inl (combine_tbl _ s)
  | comb64 => exact .inl (combine_tbl _ s)

theorem effect_tbl_of_built (i : Instr) {s : State} {tb : Table} (h : s.tbl = some tb) :
    (effect i s).tbl = some tb := by
  rcases effect_tbl_cases i s with he | he
  · rw [he, h]
  · rw [he, currentTable_of_built h]

theorem tableOk_effect (i : Instr) {s : State} (h : TableOk s) : TableOk (effect i s) := by
  rcases effect_tbl_cases i s with he | he
  · exact h.imp he.trans he.trans
  · exact .inr (by rw [he, currentTable_of_ok h])

/-- `CRC` is written by `WR`, `UPDATE`, `UPDATE.NB` and the two combines alone (R21). -/
theorem effect_crc {i : Instr} (s : State) (hwr : ∀ r d, i ≠ .wr r d) (hup : i ≠ .update) (hnb : i ≠ .updateNb)
    (h32 : i ≠ .comb32) (h64 : i ≠ .comb64) : (effect i s).crc = s.crc := by
  cases i with
  | wr r d => exact absurd rfl (hwr r d)
  | update => exact absurd rfl hup
  | updateNb => exact absurd rfl hnb
  | comb32 => exact absurd rfl h32
  | comb64 => exact absurd rfl h64
  | rd | tbuild | trd | stepb | stepw => rfl

/-- `ACC` is written by `WR`, `UPDATE`, `STEPB` and `STEPW` alone (R21, R177). -/
theorem effect_acc {i : Instr} (s : State) (hwr : ∀ r d, i ≠ .wr r d) (hup : i ≠ .update)
    (hb : ∀ b, i ≠ .stepb b) (hw : ∀ w, i ≠ .stepw w) : (effect i s).acc = s.acc := by
  cases i with
  | wr r d => exact absurd rfl (hwr r d)
  | update => exact absurd rfl hup
  | stepb b => exact absurd rfl (hb b)
  | stepw w => exact absurd rfl (hw w)
  | comb32 => exact combine_acc _ s
  | comb64 => exact combine_acc _ s
  | rd | tbuild | trd | updateNb => rfl

/-- Settles O20: what a command other than `WR` can write, field by field. -/
theorem onlyNamedCommandsWriteEachRegister : Obligations.OnlyNamedCommandsWriteEachRegister := by
  intro i s t hexec hwr
  obtain rfl := eq_effect_of_exec hexec
  have hframe := effect_differsInResults s hwr
  exact ⟨hframe.crcb, hframe.addr, hframe.len, hframe.lenh, hframe.wordEn, effect_crc s hwr, effect_acc s hwr⟩

end Sys2Proof.Machine
end

section
/-!
Which words the decoder refuses: those of R97's four kinds. The mask of a row of R94 is the opcode's eight bits and the
bits that R92 says must be zero, so a word with the row's opcode matches it exactly if those bits are zero.
-/

namespace Sys2Proof.Machine

theorem cmdWord_and_cmdWord (op op' : BitVec 8) (fn fn' : BitVec 24) (imm imm' : Word) :
    cmdWord op fn imm &&& cmdWord op' fn' imm' = cmdWord (op &&& op') (fn &&& fn') (imm &&& imm') := by
  calc cmdWord op fn imm &&& cmdWord op' fn' imm'
      = (op ++ fn &&& op' ++ fn') ++ (imm &&& imm') := BitVec.and_append
    _ = cmdWord (op &&& op') (fn &&& fn') (imm &&& imm') := congrArg (· ++ (imm &&& imm')) BitVec.and_append

/-- A word is its opcode alone exactly if its other two fields are zero. -/
theorem cmdWord_eq_op_iff {op : BitVec 8} {fn : BitVec 24} {imm : Word} :
    cmdWord op fn imm = cmdWord op 0 0 ↔ fn = 0 ∧ imm = 0 := by
  constructor
  · intro h
    have hfn := congrArg (·.extractLsb' (32 + 0) 24) h
    have himm := congrArg imm32Field h
    simp only [fnField_cmdWord _ _ _ 0 24 (by omega), BitVec.extractLsb'_eq_self] at hfn
    simp only [imm32Field_cmdWord] at himm
    exact ⟨hfn, himm⟩
  · rintro ⟨rfl, rfl⟩
    rfl

/-- No bit of the opcode has to be zero (R92). -/
theorem opField_mustBeZero (op : BitVec 8) : opField (mustBeZero op) = 0 := by
  unfold mustBeZero
  split_ifs <;> decide

/-- The mask of an opcode's row: the opcode, and the bits that must be zero (R92, R94). -/
def rowMask (op : BitVec 8) : CmdWord :=
  cmdWord 0xFF ((mustBeZero op).extractLsb' 32 24) (imm32Field (mustBeZero op))

/-- A word matches the row of its opcode exactly if its must-be-zero bits are zero (R96). -/
theorem rowMatches_iff (cw : CmdWord) :
    rowMatches (rowMask (opField cw)) (cmdWord (opField cw) 0 0) cw = true ↔
      cw &&& mustBeZero (opField cw) = 0 := by
  obtain ⟨op, fn, imm, rfl⟩ : ∃ op fn imm, cw = cmdWord op fn imm := ⟨_, _, _, (cmdWord_fields cw).symm⟩
  have hzero := cmdWord_fields (mustBeZero op)
  rw [opField_mustBeZero] at hzero
  have hmatch : cmdWord op fn imm &&& rowMask op =
      cmdWord op (fn &&& (mustBeZero op).extractLsb' 32 24) (imm &&& imm32Field (mustBeZero op)) := by
    rw [rowMask, cmdWord_and_cmdWord, show op &&& 0xFF = op from BitVec.and_allOnes]
  have hbits : cmdWord op fn imm &&& mustBeZero op =
      cmdWord 0 (fn &&& (mustBeZero op).extractLsb' 32 24) (imm &&& imm32Field (mustBeZero op)) := by
    rw [← hzero, cmdWord_and_cmdWord, hzero, show op &&& 0 = 0 from BitVec.and_zero]
  rw [opField_cmdWord, rowMatches, beq_iff_eq, hmatch, hbits, cmdWord_eq_op_iff]
  exact cmdWord_eq_op_iff.symm

/-- `WR` or `RD` on an index that it must not name: the kinds c and d of R97. -/
def BadRegister (cw : CmdWord) : Prop :=
  ((opField cw = 0x01 ∨ opField cw = 0x02) ∧ 8 ≤ (rField cw).toNat) ∨
    (opField cw = 0x01 ∧ (rField cw).toNat = 7)

theorem regOfIndex_eq_none_iff (n : BitVec 4) : regOfIndex n = none ↔ 8 ≤ n.toNat := by
  revert n
  decide

theorem regOfIndex_eq_status_iff (n : BitVec 4) : regOfIndex n = some .status ↔ n.toNat = 7 := by
  revert n
  decide

theorem decodeWr_isError_iff (cw : CmdWord) :
    (∃ c, decodeWr cw = .error c) ↔ 8 ≤ (rField cw).toNat ∨ (rField cw).toNat = 7 := by
  rw [← regOfIndex_eq_none_iff, ← regOfIndex_eq_status_iff, decodeWr]
  cases hreg : regOfIndex (rField cw) with
  | none => simp
  | some r => by_cases hr : r = .status <;> simp [hr]

theorem decodeRd_isError_iff (cw : CmdWord) : (∃ c, decodeRd cw = .error c) ↔ 8 ≤ (rField cw).toNat := by
  rw [← regOfIndex_eq_none_iff, decodeRd]
  cases hreg : regOfIndex (rField cw) <;> simp

/-- `WR` decodes to well-formed commands only (R97 d). -/
theorem wf_of_decodeWr {cw : CmdWord} {i : Instr} (h : decodeWr cw = .ok i) : i.wf = true := by
  rw [decodeWr] at h
  cases hreg : regOfIndex (rField cw) with
  | none => simp [hreg] at h
  | some r =>
    by_cases hr : r = .status
    · simp [hreg, hr] at h
    · simp only [hreg, if_neg hr, Except.ok.injEq] at h
      rw [← h]
      exact bne_iff_ne.mpr hr

theorem wf_of_decodeRd {cw : CmdWord} {i : Instr} (h : decodeRd cw = .ok i) : i.wf = true := by
  rw [decodeRd] at h
  cases hreg : regOfIndex (rField cw) with
  | none => simp [hreg] at h
  | some r =>
    simp only [hreg, Except.ok.injEq] at h
    rw [← h]
    rfl

/-- What a row answers for a word that matches it: refused exactly for a bad register, else a well-formed command. -/
structure RowAnswer (cw : CmdWord) (answer : Except IllegalCause Instr) : Prop where
  isError_iff : (∃ c, answer = .error c) ↔ BadRegister cw
  wf_of_ok : ∀ i, answer = .ok i → i.wf = true

/-- A row without a register. -/
theorem rowAnswer_ok {cw : CmdWord} {i : Instr} (h1 : opField cw ≠ 0x01) (h2 : opField cw ≠ 0x02)
    (hwf : i.wf = true) : RowAnswer cw (.ok i) where
  isError_iff := by
    have hgood : ¬ BadRegister cw := by
      rintro (⟨h | h, -⟩ | ⟨h, -⟩)
      · exact h1 h
      · exact h2 h
      · exact h1 h
    exact ⟨nofun, fun hbad => absurd hbad hgood⟩
  wf_of_ok j hj := by rw [← Except.ok.inj hj, hwf]

theorem rowAnswer_decodeWr {cw : CmdWord} (h : opField cw = 0x01) : RowAnswer cw (decodeWr cw) where
  isError_iff := by simp [decodeWr_isError_iff, BadRegister, h]
  wf_of_ok _ := wf_of_decodeWr

theorem rowAnswer_decodeRd {cw : CmdWord} (h : opField cw = 0x02) : RowAnswer cw (decodeRd cw) where
  isError_iff := by simp [decodeRd_isError_iff, BadRegister, h]
  wf_of_ok _ := wf_of_decodeRd

theorem decode_of_not_definedOp {cw : CmdWord} (h : opField cw ∉ definedOps) :
    decode cw = .error .undefinedOpcode := by
  simp only [definedOps, List.mem_cons, List.not_mem_nil, or_false, not_or] at h
  simp only [decode, h, if_false]

/-- A word with a defined opcode is tested against that opcode's row (R102). -/
theorem decode_of_definedOp {cw : CmdWord} (h : opField cw ∈ definedOps) :
    ∃ answer, decode cw = decodeRow (rowMask (opField cw)) (cmdWord (opField cw) 0 0) cw answer ∧
      RowAnswer cw answer := by
  simp only [definedOps, List.mem_cons, List.not_mem_nil, or_false] at h
  rcases h with h | h | h | h | h | h | h | h | h
  · exact ⟨_, by rw [decode, h]; rfl, rowAnswer_decodeWr h⟩
  · exact ⟨_, by rw [decode, h]; rfl, rowAnswer_decodeRd h⟩
  all_goals
    refine ⟨_, by rw [decode, h]; rfl, rowAnswer_ok (by rw [h]; decide) (by rw [h]; decide) ?_⟩
  -- the fifth of these rows is the one with two commands, `UPDATE` by its bit `p`
  on_goal 5 => split <;> rfl
  all_goals rfl

theorem decodeRow_of_matches {mask fixed cw : CmdWord} (answer : Except IllegalCause Instr)
    (h : rowMatches mask fixed cw = true) : decodeRow mask fixed cw answer = answer := if_pos h

theorem decodeRow_of_not_matches {mask fixed cw : CmdWord} (answer : Except IllegalCause Instr)
    (h : ¬ rowMatches mask fixed cw = true) : decodeRow mask fixed cw answer = .error .reservedBit := if_neg h

/-- The decoder refuses exactly the words of R97's four kinds. -/
theorem decode_isError_iff_illegalWord (cw : CmdWord) : (∃ c, decode cw = .error c) ↔ IllegalWord cw := by
  by_cases hop : opField cw ∈ definedOps
  · obtain ⟨answer, hdec, hanswer⟩ := decode_of_definedOp hop
    rw [hdec]
    by_cases hmatch : rowMatches (rowMask (opField cw)) (cmdWord (opField cw) 0 0) cw = true
    · have hzero := (rowMatches_iff cw).mp hmatch
      rw [decodeRow_of_matches answer hmatch, hanswer.isError_iff]
      simp only [IllegalWord, BadRegister, hop, hzero, not_true_eq_false, ne_eq, and_false, false_or]
    · rw [decodeRow_of_not_matches answer hmatch]
      exact ⟨fun _ => .inr (.inl ⟨hop, fun hzero => hmatch ((rowMatches_iff cw).mpr hzero)⟩), fun _ => ⟨_, rfl⟩⟩
  · exact ⟨fun _ => .inl hop, fun _ => ⟨_, decode_of_not_definedOp hop⟩⟩

/-- The decoder answers well-formed commands only (R94, R97 d). -/
theorem wf_of_decode {cw : CmdWord} {i : Instr} (h : decode cw = .ok i) : i.wf = true := by
  by_cases hop : opField cw ∈ definedOps
  · obtain ⟨answer, hdec, hanswer⟩ := decode_of_definedOp hop
    by_cases hmatch : rowMatches (rowMask (opField cw)) (cmdWord (opField cw) 0 0) cw = true
    · rw [hdec, decodeRow_of_matches answer hmatch] at h
      exact hanswer.wf_of_ok i h
    · rw [hdec, decodeRow_of_not_matches answer hmatch] at h
      exact nomatch h
  · rw [decode_of_not_definedOp hop] at h
    exact nomatch h

theorem not_illegalWord_of_decode {cw : CmdWord} {i : Instr} (h : decode cw = .ok i) : ¬ IllegalWord cw := by
  rw [← decode_isError_iff_illegalWord]
  rintro ⟨c, hc⟩
  exact nomatch h.symm.trans hc

end Sys2Proof.Machine
end

section
/-!
The steps of the machine as a relation with one constructor for each kind of step, and what each kind keeps: the
invariant of `State.Inv`, `STATUS.ILL` until reset, a built table, and the strap.
-/

namespace Sys2Proof.Machine

/-- The next states of `s`, by the kind of step. -/
inductive StepTo (s : State) : State → Prop where
  /-- the host does nothing (R12, R242) -/
  | idle (hin : s.inputs = []) : StepTo s s
  /-- the host waits with its word at a busy port (log 8) -/
  | wait (cw : CmdWord) (rest : List HostAction) (hin : s.inputs = .present cw :: rest) (hbusy : s.busy = true) :
    StepTo s s
  /-- a word is accepted and is a command (R90) -/
  | command (cw : CmdWord) (rest : List HostAction) (i : Instr) (hin : s.inputs = .present cw :: rest)
    (hidle : s.busy = false) (hdec : decode cw = .ok i) :
    StepTo s (finishCommand (effect i (acceptWord rest s)))
  /-- a word is accepted and is no command (R97, R231) -/
  | illegal (cw : CmdWord) (rest : List HostAction) (c : IllegalCause) (hin : s.inputs = .present cw :: rest)
    (hidle : s.busy = false) (hdec : decode cw = .error c) :
    StepTo s (finishCommand (raiseIllegal (acceptWord rest s)))
  /-- the host takes a response, or waits for one (R93) -/
  | take (rest : List HostAction) (hin : s.inputs = .takeResponse :: rest) : StepTo s (takeResponse rest s)
  /-- the host stores a byte (R60) -/
  | store (a : Word) (b : Byte) (rest : List HostAction) (hin : s.inputs = .store a b :: rest) :
    StepTo s (hostStore a b rest s)
  /-- the host resets the block (R260) -/
  | reset (be : Bool) (rest : List HostAction) (hin : s.inputs = .reset be :: rest) : StepTo s (hostReset be rest s)

theorem step_of_present_illegal {s : State} {cw : CmdWord} {rest : List HostAction} {c : IllegalCause}
    (hidle : s.busy = false) (hin : s.inputs = .present cw :: rest) (hdec : decode cw = .error c) :
    step s = .next (finishCommand (raiseIllegal (acceptWord rest s))) := by
  rw [step_of_inputs_present hin, presentWord_of_ready cw rest hidle, runWord_of_illegal _ hdec, finishOutcome_next]

theorem step_of_inputs_takeResponse {s : State} {rest : List HostAction} (hin : s.inputs = .takeResponse :: rest) :
    step s = .next (takeResponse rest s) := by
  simp only [step, hostAction, hin]

theorem step_of_inputs_store {s : State} {a : Word} {b : Byte} {rest : List HostAction}
    (hin : s.inputs = .store a b :: rest) : step s = .next (hostStore a b rest s) := by
  simp only [step, hostAction, hin]

theorem step_of_inputs_reset {s : State} {be : Bool} {rest : List HostAction} (hin : s.inputs = .reset be :: rest) :
    step s = .next (hostReset be rest s) := by
  simp only [step, hostAction, hin]

/-- The relation is the step. -/
theorem step_eq_next_iff {s t : State} : step s = .next t ↔ StepTo s t := by
  constructor
  · intro h
    obtain ⟨hin, rfl⟩ | ⟨cw, rest, hin, hbusy, rfl⟩ | ⟨cw, rest, hin, hidle, hrun⟩ | ⟨rest, hin, rfl⟩ |
      ⟨a, b, rest, hin, rfl⟩ | ⟨be, rest, hin, rfl⟩ := step_cases h
    · exact .idle hin
    · exact .wait cw rest hin hbusy
    · obtain ⟨i, u, hdec, hexec, rfl⟩ | ⟨c, hdec, rfl⟩ := finish_runWord_cases hrun
      · rw [eq_effect_of_exec hexec]
        exact .command cw rest i hin hidle hdec
      · exact .illegal cw rest c hin hidle hdec
    · exact .take rest hin
    · exact .store a b rest hin
    · exact .reset be rest hin
  · intro h
    cases h with
    | idle hin => exact step_of_inputs_nil hin
    | wait cw rest hin hbusy => rw [step_of_inputs_present hin, presentWord_of_busy cw rest hbusy]
    | command cw rest i hin hidle hdec =>
      rw [step_of_present_command hidle hin hdec, exec_eq_next_effect, finishOutcome_next]
    | illegal cw rest c hin hidle hdec => exact step_of_present_illegal hidle hin hdec
    | take rest hin => exact step_of_inputs_takeResponse hin
    | store a b rest hin => exact step_of_inputs_store hin
    | reset be rest hin => exact step_of_inputs_reset hin

/-- Settles O11: the store is the memory's own write, read back. -/
theorem hostStoreChangesOneByte : Obligations.HostStoreChangesOneByte := by
  intro s a b rest hinv hin
  refine ⟨s.mem.write a b, step_of_inputs_store hin, ?_, fun x hx => ?_⟩
  · rw [read_write _ _ _ _ hinv.memWf, if_pos rfl]
  · rw [read_write _ _ _ _ hinv.memWf, if_neg hx]

/-! What taking a response leaves -/

theorem takeResponse_of_nil {s : State} (rest : List HostAction) (h : s.responses = []) : takeResponse rest s = s := by
  simp only [takeResponse, h]

theorem takeResponse_of_cons {s : State} {v : Word} {later : List Word} (rest : List HostAction)
    (h : s.responses = v :: later) : takeResponse rest s = { s with responses := later, inputs := rest } := by
  simp only [takeResponse, h]

/-- Taking a response changes the queue and the host's list at most (R47). -/
theorem takeResponse_eq (rest : List HostAction) (s : State) :
    ∃ later inputs, takeResponse rest s = { s with responses := later, inputs := inputs } := by
  cases hresp : s.responses with
  | nil => exact ⟨s.responses, s.inputs, takeResponse_of_nil rest hresp⟩
  | cons v later => exact ⟨later, rest, takeResponse_of_cons rest hresp⟩

section
variable (rest : List HostAction) (s : State)

@[simp] theorem takeResponse_ill : (takeResponse rest s).ill = s.ill := by
  obtain ⟨_, _, h⟩ := takeResponse_eq rest s
  rw [h]

@[simp] theorem takeResponse_be : (takeResponse rest s).be = s.be := by
  obtain ⟨_, _, h⟩ := takeResponse_eq rest s
  rw [h]

@[simp] theorem takeResponse_tblEager : (takeResponse rest s).tblEager = s.tblEager := by
  obtain ⟨_, _, h⟩ := takeResponse_eq rest s
  rw [h]

@[simp] theorem takeResponse_tbl : (takeResponse rest s).tbl = s.tbl := by
  obtain ⟨_, _, h⟩ := takeResponse_eq rest s
  rw [h]

end

/-! Reset -/

theorem tableOk_of_resetTable {s : State} {eager : Bool} (h : s.tbl = resetTable eager) : TableOk s := by
  cases eager with
  | false => exact .inl h
  | true => exact .inr h

/-- `STATUS.TV` after reset is `TBL_EAGER` (R33, R48). -/
theorem isSome_resetTable (eager : Bool) : (resetTable eager).isSome = eager := by cases eager <;> rfl

/-- Settles O14: each part of the invariant is a reset value. -/
theorem resetHasInvariant : Obligations.ResetHasInvariant := fun cfg =>
  { memWf := nil_wf
    tableOk := tableOk_of_resetTable rfl
    eagerBuilt := (isSome_resetTable cfg.tblEager).trans
    idle := rfl }

/-- `STATUS.VEC` reads as `VEC_CAP` (R35, R123). -/
theorem statusWord_getLsbD_three (s : State) : (statusWord s).getLsbD 3 = Config.vecCap := by
  rw [statusWord, BitVec.getLsbD_append, BitVec.getLsbD_append, BitVec.getLsbD_append, BitVec.getLsbD_append]
  rfl

theorem ctrlWord_of_wordEn_false {s : State} (h : s.wordEn = false) : ctrlWord s = 0 := by
  rw [ctrlWord, h]
  rfl

/-- Settles O12: the values of R48's table, read off `State.resetWith`. -/
theorem resetValues : Obligations.ResetValues := by
  intro cfg
  have hbuilt : cfg.tblEager = true → resetTable cfg.tblEager = some buildTable := fun h => by rw [h]; rfl
  exact ⟨rfl, rfl, rfl, rfl, rfl, rfl, ctrlWord_of_wordEn_false rfl, rfl, isSome_resetTable cfg.tblEager, rfl, rfl,
    statusWord_getLsbD_three _, hbuilt, rfl, rfl⟩

/-! The invariant -/

theorem inv_finish_effect {s : State} (i : Instr) (rest : List HostAction) (h : s.Inv) :
    (finishCommand (effect i (acceptWord rest s))).Inv := by
  obtain ⟨hmem, hok, heager, -⟩ := h
  refine ⟨?_, ?_, ?_, rfl⟩
  · rw [finishCommand_mem, effect_mem]
    exact hmem
  · exact tableOk_effect i (s := acceptWord rest s) hok
  · rw [finishCommand_tblEager, effect_tblEager]
    intro he
    obtain ⟨tb, htb⟩ := Option.isSome_iff_exists.mp (heager he)
    rw [finishCommand_tbl, effect_tbl_of_built i (s := acceptWord rest s) htb]
    rfl

theorem inv_takeResponse {s : State} (rest : List HostAction) (h : s.Inv) : (takeResponse rest s).Inv := by
  obtain ⟨hmem, hok, heager, hidle⟩ := h
  obtain ⟨_, _, he⟩ := takeResponse_eq rest s
  rw [he]
  exact ⟨hmem, hok, heager, hidle⟩

theorem inv_hostStore {s : State} (a : Word) (b : Byte) (rest : List HostAction) (h : s.Inv) :
    (hostStore a b rest s).Inv := by
  obtain ⟨hmem, hok, heager, hidle⟩ := h
  exact ⟨write_wf s.mem a b hmem, hok, heager, hidle⟩

theorem inv_hostReset {s : State} (be : Bool) (rest : List HostAction) (h : s.Inv) : (hostReset be rest s).Inv where
  memWf := h.memWf
  tableOk := tableOk_of_resetTable rfl
  eagerBuilt := (isSome_resetTable s.tblEager).trans
  idle := rfl

/-- Settles O15: the invariant, kind of step by kind of step. -/
theorem everyStepKeepsInvariant : Obligations.EveryStepKeepsInvariant := by
  intro s t hinv hstep
  cases step_eq_next_iff.mp hstep with
  | idle => exact hinv
  | wait => exact hinv
  | command cw rest i => exact inv_finish_effect i rest hinv
  | illegal => exact ⟨hinv.memWf, hinv.tableOk, hinv.eagerBuilt, rfl⟩
  | take rest => exact inv_takeResponse rest hinv
  | store a b rest => exact inv_hostStore a b rest hinv
  | reset be rest => exact inv_hostReset be rest hinv

/-! What holds until reset -/

/-- Settles O16: the only step that changes `STATUS.ILL` is the acceptance of a word that does not decode. -/
theorem illIsStickyAndOnlyIllegalWordsSetIt : Obligations.IllIsStickyAndOnlyIllegalWordsSetIt := by
  intro s t hreset hstep
  cases step_eq_next_iff.mp hstep with
  | idle hin => simp [hin]
  | wait cw rest hin hbusy => simp [hbusy]
  | command cw rest i hin hidle hdec =>
    rw [finishCommand_ill, effect_ill _ (wf_of_decode hdec), acceptWord_ill]
    simp [hin, not_illegalWord_of_decode hdec]
  | illegal cw rest c hin hidle hdec =>
    have hill := (decode_isError_iff_illegalWord cw).mp ⟨c, hdec⟩
    exact ⟨fun _ => .inr ⟨hidle, cw, rest, hin, hill⟩, fun _ => rfl⟩
  | take rest hin => simp [hin]
  | store a b rest hin => simp [hin]
  | reset be rest hin => exact absurd hin (hreset be rest)

/-- Settles O17: the one operation that stores a table leaves a built one alone. -/
theorem builtTableNeverChanges : Obligations.BuiltTableNeverChanges := by
  intro s t tb hbuilt hreset hstep
  cases step_eq_next_iff.mp hstep with
  | command cw rest i => rw [finishCommand_tbl, effect_tbl_of_built i (s := acceptWord rest s) hbuilt]
  | take rest => rw [takeResponse_tbl, hbuilt]
  | reset be rest hin => exact absurd hin (hreset be rest)
  | idle | wait | illegal | store => exact hbuilt

/-- A step that is no reset keeps the strap and `TBL_EAGER`. -/
theorem step_be_tblEager {s t : State} (hreset : NoReset s) (hstep : StepTo s t) :
    t.be = s.be ∧ t.tblEager = s.tblEager := by
  cases hstep with
  | command cw rest i => simp
  | take rest => simp
  | reset be rest hin => exact absurd hin (hreset be rest)
  | idle | wait | illegal | store => exact ⟨rfl, rfl⟩

/-- Settles O19: by whether the step is a reset. -/
theorem strapHoldsUntilReset : Obligations.StrapHoldsUntilReset := by
  intro s t hstep
  by_cases hreset : NoReset s
  · obtain ⟨hbe, heager⟩ := step_be_tblEager hreset (step_eq_next_iff.mp hstep)
    exact ⟨heager, fun _ => hbe, fun be rest hin => absurd hin (hreset be rest)⟩
  · obtain ⟨be, rest, hin⟩ : ∃ be rest, s.inputs = .reset be :: rest := by
      simpa only [NoReset, not_forall, ne_eq, not_not] using hreset
    obtain rfl := Host.Outcome.next.inj (hstep.symm.trans (step_of_inputs_reset hin))
    refine ⟨rfl, fun h => absurd h hreset, fun be' rest' hin' => ?_⟩
    obtain ⟨hbe, -⟩ := List.cons.inj (hin.symm.trans hin')
    exact HostAction.reset.inj hbe

end Sys2Proof.Machine
end

section
/-!
The hidden storage (R43, R44): a simulation between states that differ only there and in the numbering of the free
values. Each operation keeps the relation, and so does a step.
-/

namespace Sys2Proof.Machine

/-- `s'` is `s` but for the hidden storage and the numbering of the free values (log 7). -/
def SameButHidden (s s' : State) : Prop := ∃ scr n, s' = { s with scratch := scr, freeIdx := n }

theorem SameButHidden.len_eq {s s' : State} (h : SameButHidden s s') : s'.len = s.len := by
  obtain ⟨scr, n, rfl⟩ := h
  rfl

theorem SameButHidden.responses_eq {s s' : State} (h : SameButHidden s s') : s'.responses = s.responses := by
  obtain ⟨scr, n, rfl⟩ := h
  rfl

theorem sameButHidden_effect_update {s s' : State} (h : SameButHidden s s') :
    SameButHidden (effect .update s) (effect .update s') := by
  by_cases hlen : s.len = 0
  · rw [effect_update_of_len_zero s hlen, effect_update_of_len_zero s' (h.len_eq.trans hlen)]
    obtain ⟨scr, n, rfl⟩ := h
    exact ⟨scr, n, rfl⟩
  · rw [effect_update_of_len_ne_zero s hlen, effect_update_of_len_ne_zero s' (h.len_eq.trans_ne hlen)]
    obtain ⟨scr, n, rfl⟩ := h
    exact ⟨_, _, rfl⟩

theorem sameButHidden_combine (len : BitVec 64) {s s' : State} (h : SameButHidden s s') :
    SameButHidden (combine len s) (combine len s') := by
  rcases le_or_gt len.toInt 0 with hlen | hlen
  · rwa [combine_of_not_positive s hlen, combine_of_not_positive s' hlen]
  · rw [combine_of_positive s hlen, combine_of_positive s' hlen]
    obtain ⟨scr, n, rfl⟩ := h
    exact ⟨_, _, rfl⟩

/-- No command's result depends on the hidden storage (R43, R44, R213). -/
theorem sameButHidden_effect (i : Instr) {s s' : State} (h : SameButHidden s s') :
    SameButHidden (effect i s) (effect i s') := by
  have hhidden := h
  obtain ⟨scr, n, rfl⟩ := h
  cases i with
  | wr r d => cases r <;> exact ⟨scr, n, rfl⟩
  | rd r => cases r <;> exact ⟨scr, n, rfl⟩
  | update => exact sameButHidden_effect_update hhidden
  | comb32 => exact sameButHidden_combine (comb32Length s) hhidden
  | comb64 => exact sameButHidden_combine (comb64Length s) hhidden
  | tbuild | trd | stepb | stepw | updateNb => exact ⟨scr, n, rfl⟩

theorem sameButHidden_acceptWord (rest : List HostAction) {s s' : State} (h : SameButHidden s s') :
    SameButHidden (acceptWord rest s) (acceptWord rest s') := by
  obtain ⟨scr, n, rfl⟩ := h
  exact ⟨scr, n, rfl⟩

theorem sameButHidden_finishCommand {s s' : State} (h : SameButHidden s s') :
    SameButHidden (finishCommand s) (finishCommand s') := by
  obtain ⟨scr, n, rfl⟩ := h
  exact ⟨scr, n, rfl⟩

theorem sameButHidden_takeResponse (rest : List HostAction) {s s' : State} (h : SameButHidden s s') :
    SameButHidden (takeResponse rest s) (takeResponse rest s') := by
  cases hresp : s.responses with
  | nil => rwa [takeResponse_of_nil rest hresp, takeResponse_of_nil rest (h.responses_eq.trans hresp)]
  | cons v later =>
    rw [takeResponse_of_cons rest hresp, takeResponse_of_cons rest (h.responses_eq.trans hresp)]
    obtain ⟨scr, n, rfl⟩ := h
    exact ⟨scr, n, rfl⟩

theorem sameButHidden_hostReset (be : Bool) (rest : List HostAction) {s s' : State} (h : SameButHidden s s') :
    SameButHidden (hostReset be rest s) (hostReset be rest s') := by
  obtain ⟨scr, n, rfl⟩ := h
  exact ⟨_, _, rfl⟩

/-- The simulation: a step of one state is matched by a step of the same kind of the other. -/
theorem stepTo_sameButHidden {s s' t : State} (h : SameButHidden s s') (hstep : StepTo s t) :
    ∃ t', StepTo s' t' ∧ SameButHidden t t' := by
  have hhidden := h
  obtain ⟨scr, n, rfl⟩ := h
  cases hstep with
  | idle hin => exact ⟨_, .idle hin, hhidden⟩
  | wait cw rest hin hbusy => exact ⟨_, .wait cw rest hin hbusy, hhidden⟩
  | command cw rest i hin hidle hdec =>
    exact ⟨_, .command cw rest i hin hidle hdec,
      sameButHidden_finishCommand (sameButHidden_effect i (sameButHidden_acceptWord rest hhidden))⟩
  | illegal cw rest c hin hidle hdec => exact ⟨_, .illegal cw rest c hin hidle hdec, scr, n, rfl⟩
  | take rest hin => exact ⟨_, .take rest hin, sameButHidden_takeResponse rest hhidden⟩
  | store a b rest hin => exact ⟨_, .store a b rest hin, scr, n, rfl⟩
  | reset be rest hin => exact ⟨_, .reset be rest hin, sameButHidden_hostReset be rest hhidden⟩

/-- Settles O23: the simulation, from any two states that differ in the hidden storage alone. -/
theorem hiddenStorageIsUnobservable : Obligations.HiddenStorageIsUnobservable := by
  intro s t scr n hstep
  obtain ⟨t', hstep', scr', n', rfl⟩ := stepTo_sameButHidden ⟨scr, n, rfl⟩ (step_eq_next_iff.mp hstep)
  exact ⟨scr', n', step_eq_next_iff.mpr hstep'⟩

end Sys2Proof.Machine
end

section
/-!
The data memory as the commands see it (20_memory.md): none writes it, a four-byte read follows the strap, and the reads
of one `UPDATE` are head, body and tail (R66) over the addresses of the buffer in order.
-/

namespace Sys2Proof.Machine

/-- Settles O18: a command's effect keeps the memory, and so does a word that the host waits with or that is illegal. -/
theorem commandsWriteNoMemory : Obligations.CommandsWriteNoMemory := by
  refine ⟨fun i s t hexec a => ?_, fun s t cw rest hpresent hstep a => ?_⟩
  · rw [eq_effect_of_exec hexec, effect_mem]
  · cases step_eq_next_iff.mp hstep with
    | wait => rfl
    | command cw' rest' i => rw [finishCommand_mem, effect_mem, acceptWord_mem]
    | illegal => rfl
    | idle hin | take _ hin | store _ _ _ hin | reset _ _ hin => cases hpresent.symm.trans hin

/-! The bytes of a word in stream order -/

/-- The packed bytes come back in stream order, in either byte order (R160). -/
@[simp] theorem streamBytes_packWord (be : Bool) (b0 b1 b2 b3 : Byte) :
    streamBytes be (packWord be b0 b1 b2 b3) = [b0, b1, b2, b3] := by
  cases be with
  | false =>
    obtain ⟨h0, h1, h2, h3⟩ := extract_bytes b3 b2 b1 b0
    simp only [streamBytes, packWord, Bool.false_eq_true, if_false, h0, h1, h2, h3]
  | true =>
    obtain ⟨h0, h1, h2, h3⟩ := extract_bytes b0 b1 b2 b3
    simp only [streamBytes, packWord, if_true, h0, h1, h2, h3]

/-- Settles O40: the read packs the four bytes in the order of the strap, and packing keeps the stream order. -/
theorem fourByteReadFollowsTheStrap : Obligations.FourByteReadFollowsTheStrap :=
  fun _ _ => ⟨rfl, rfl, fun be => streamBytes_packWord be _ _ _ _⟩

/-! The addresses of a buffer -/

/-- The addresses of `n` bytes from `a` on, in stream order, modulo 2^32 (R61, R67). -/
def bufferAddresses (a : Word) (n : Nat) : List Word := (List.range n).map fun i => a + BitVec.ofNat 32 i

@[simp] theorem length_bufferAddresses (a : Word) (n : Nat) : (bufferAddresses a n).length = n := by
  simp [bufferAddresses]

theorem bufferAddresses_add (a : Word) (m n : Nat) :
    bufferAddresses a (m + n) = bufferAddresses a m ++ bufferAddresses (a + BitVec.ofNat 32 m) n := by
  simp only [bufferAddresses, List.range_add, List.map_append, List.map_map, Function.comp_def, BitVec.ofNat_add,
    BitVec.add_assoc]

theorem bufferAddresses_succ (a : Word) (n : Nat) :
    bufferAddresses a (n + 1) = a :: bufferAddresses (a + 1) n := by
  rw [Nat.add_comm, bufferAddresses_add]
  simp [bufferAddresses]

/-! The shapes of the reads -/

theorem byteReads_eq_map (n : Nat) (a : Word) : byteReads n a = (bufferAddresses a n).map .byte := by
  induction n generalizing a with
  | zero => rfl
  | succ n ih => rw [byteReads, ih, bufferAddresses_succ, List.map_cons]

/-- A step of an address is a step of its offset from the multiples of 4, also where the address wraps (R64, R67). -/
theorem toNat_add_ofNat_mod_four (a : Word) (n : Nat) :
    (a + BitVec.ofNat 32 n).toNat % 4 = (a.toNat + n) % 4 := by
  rw [BitVec.toNat_add, BitVec.toNat_ofNat]
  omega

/-- Four-byte reads that start at a multiple of 4 stay at multiples of 4 (R64). -/
theorem wordReads_eq_map (n : Nat) (a : Word) :
    ∃ body : List Word, wordReads n a = body.map .word ∧ body.length = n ∧
      (a.toNat % 4 = 0 → ∀ b ∈ body, b.toNat % 4 = 0) := by
  induction n generalizing a with
  | zero => exact ⟨[], rfl, rfl, by simp⟩
  | succ n ih =>
    obtain ⟨body, hreads, hlength, haligned⟩ := ih (a + 4)
    refine ⟨a :: body, by rw [wordReads, hreads, List.map_cons], by rw [List.length_cons, hlength], fun ha => ?_⟩
    have hnext : (a + 4).toNat % 4 = 0 := by
      rw [show (4 : Word) = BitVec.ofNat 32 4 from rfl, toNat_add_ofNat_mod_four]
      omega
    exact List.forall_mem_cons.mpr ⟨ha, haligned hnext⟩

/-- Body and tail (R66). -/
theorem alignedReads_body_tail (n : Nat) (a : Word) :
    ∃ body tail : List Word, alignedReads n a = body.map .word ++ tail.map .byte ∧ body.length = n / 4 ∧
      tail.length < 4 ∧ (a.toNat % 4 = 0 → ∀ b ∈ body, b.toNat % 4 = 0) := by
  obtain ⟨body, hreads, hlength, haligned⟩ := wordReads_eq_map (n / 4) a
  refine ⟨body, bufferAddresses (a + BitVec.ofNat 32 (n / 4 * 4)) (n % 4), ?_, hlength, ?_, haligned⟩
  · rw [alignedReads, hreads, byteReads_eq_map]
  · rw [length_bufferAddresses]
    exact Nat.mod_lt n (by decide)

/-- How many of `n` bytes from `a` on lie before the first multiple of 4: the length of the head (R66). -/
def headLength (n : Nat) (a : Word) : Nat := min n ((4 - a.toNat % 4) % 4)

/-- The test of R174's head loop. -/
theorem extract_low_two_eq_zero_iff (a : Word) : a.extractLsb' 0 2 = 0 ↔ a.toNat % 4 = 0 := by
  rw [← BitVec.toNat_inj]
  simp

theorem headLength_of_aligned (n : Nat) {a : Word} (h : a.toNat % 4 = 0) : headLength n a = 0 := by
  rw [headLength]
  omega

theorem headLength_of_not_aligned (n : Nat) {a : Word} (h : a.toNat % 4 ≠ 0) :
    headLength (n + 1) a = headLength n (a + 1) + 1 := by
  have hnext : (a + 1).toNat % 4 = (a.toNat + 1) % 4 := toNat_add_ofNat_mod_four a 1
  rw [headLength, headLength, hnext]
  omega

/-- Where bytes remain after the head, they start at a multiple of 4. -/
theorem aligned_after_head {n : Nat} {a : Word} (h : headLength n a < n) :
    (a + BitVec.ofNat 32 (headLength n a)).toNat % 4 = 0 := by
  rw [toNat_add_ofNat_mod_four]
  rw [headLength] at h ⊢
  omega

/-- The word-wise strategy is one-byte reads of the head and then the aligned rest (R66). -/
theorem wordModeReads_eq (n : Nat) (a : Word) :
    wordModeReads n a =
      byteReads (headLength n a) a ++ alignedReads (n - headLength n a) (a + BitVec.ofNat 32 (headLength n a)) := by
  induction n generalizing a with
  | zero => simp [headLength, wordModeReads, byteReads, alignedReads, wordReads]
  | succ n ih =>
    rw [wordModeReads]
    by_cases ha : a.toNat % 4 = 0
    · rw [if_pos ((extract_low_two_eq_zero_iff a).mpr ha), headLength_of_aligned _ ha]
      simp [byteReads]
    · have hend : a + 1 + BitVec.ofNat 32 (headLength n (a + 1)) =
          a + BitVec.ofNat 32 (headLength n (a + 1) + 1) := by
        rw [Nat.add_comm, BitVec.ofNat_add, BitVec.add_assoc]
        rfl
      rw [if_neg (mt (extract_low_two_eq_zero_iff a).mp ha), headLength_of_not_aligned n ha, byteReads, ih, hend,
        Nat.add_sub_add_right, List.cons_append]

/-! The bytes the reads cover -/

@[simp] theorem accessBytes_byteReads (n : Nat) (a : Word) :
    (byteReads n a).flatMap accessBytes = bufferAddresses a n := by
  rw [byteReads_eq_map, List.flatMap_map]
  exact List.flatMap_singleton' _

theorem bufferAddresses_four (a : Word) : bufferAddresses a 4 = [a, a + 1, a + 2, a + 3] := by
  simp [bufferAddresses, List.range_succ]

@[simp] theorem accessBytes_wordReads (n : Nat) (a : Word) :
    (wordReads n a).flatMap accessBytes = bufferAddresses a (n * 4) := by
  induction n generalizing a with
  | zero => rfl
  | succ n ih =>
    rw [wordReads, List.flatMap_cons, ih, Nat.succ_mul, Nat.add_comm, bufferAddresses_add, bufferAddresses_four]
    rfl

@[simp] theorem accessBytes_alignedReads (n : Nat) (a : Word) :
    (alignedReads n a).flatMap accessBytes = bufferAddresses a n := by
  rw [alignedReads, List.flatMap_append, accessBytes_wordReads, accessBytes_byteReads, ← bufferAddresses_add,
    Nat.div_add_mod']

@[simp] theorem accessBytes_wordModeReads (n : Nat) (a : Word) :
    (wordModeReads n a).flatMap accessBytes = bufferAddresses a n := by
  have hle : headLength n a ≤ n := Nat.min_le_left _ _
  rw [wordModeReads_eq, List.flatMap_append, accessBytes_byteReads, accessBytes_alignedReads, ← bufferAddresses_add,
    Nat.add_sub_cancel' hle]

/-- Either strategy reads each byte of the buffer once, in order (R66). -/
theorem accessBytes_updateReads (wordEn : Bool) (n : Nat) (a : Word) :
    (updateReads wordEn n a).flatMap accessBytes = bufferAddresses a n := by
  cases wordEn with
  | false => exact accessBytes_byteReads n a
  | true => exact accessBytes_wordModeReads n a

/-- Head, body and tail of the word-wise strategy (R66). -/
theorem wordModeReads_head_body_tail (n : Nat) (a : Word) :
    ∃ head body tail : List Word,
      wordModeReads n a = head.map .byte ++ body.map .word ++ tail.map .byte ∧
        head.length = headLength n a ∧ body.length = (n - head.length) / 4 ∧ tail.length < 4 ∧
        ∀ b ∈ body, b.toNat % 4 = 0 := by
  obtain ⟨body, tail, hreads, hbody, htail, haligned⟩ :=
    alignedReads_body_tail (n - headLength n a) (a + BitVec.ofNat 32 (headLength n a))
  have hhead := length_bufferAddresses a (headLength n a)
  refine ⟨bufferAddresses a (headLength n a), body, tail, ?_, hhead, by rw [hhead, hbody], htail, fun b hb => ?_⟩
  · rw [wordModeReads_eq, hreads, byteReads_eq_map, List.append_assoc]
  · have hpos : 0 < body.length := List.length_pos_of_mem hb
    exact haligned (aligned_after_head (by omega)) b hb

/-- Settles O39: the reads that `ACC` is the fold of, strategy by strategy. -/
theorem updateReadsEachByteOnce : Obligations.UpdateReadsEachByteOnce := by
  intro s hlen
  refine ⟨updateBuffer s, ?_, rfl, accessBytes_updateReads _ _ _, fun hbyte r hr => ?_, fun hword => ?_⟩
  · rw [exec_eq_next_effect, effect_update_of_len_ne_zero s hlen]
  · rw [hbyte, updateReads, if_neg Bool.false_ne_true, byteReads_eq_map] at hr
    obtain ⟨a, -, rfl⟩ := List.mem_map.mp hr
    exact ⟨a, rfl⟩
  · rw [hword, updateReads, if_pos rfl]
    exact wordModeReads_head_body_tail _ _

end Sys2Proof.Machine
end

section
/-!
Decoding as the converse of encoding (30_encoding.md). A word decodes to a command exactly if it matches the command's
row of R94 and its operand fields are the command's operands (R102). The word of a legal command is one such word; and a
matching word is its opcode and its operand fields, every other bit being zero, so it is the only one.
-/

namespace Sys2Proof.Machine

open Laws.EncodeRow (mask fixed)

/-- The operands of a command are the fields of the word, by R95, and its register is one the row allows (R94). -/
def HasOperands (cw : CmdWord) : Instr → Prop
  | .wr r d => r ≠ .status ∧ regOfIndex (rField cw) = some r ∧ imm32Field cw = d
  | .rd r => regOfIndex (rField cw) = some r
  | .trd k n => kField cw = k ∧ nField cw = n
  | .stepb imm8 => imm8Field cw = imm8
  | .stepw w => imm32Field cw = w
  | .update => cw.getLsbD 32 = true
  | .updateNb => cw.getLsbD 32 = false
  | .tbuild | .comb32 | .comb64 => True

/-! The rows of the decoder -/

theorem decodeWr_eq_ok_iff {cw : CmdWord} {i : Instr} :
    decodeWr cw = .ok i ↔ ∃ r d, i = .wr r d ∧ HasOperands cw (.wr r d) := by
  rw [decodeWr]
  cases hreg : regOfIndex (rField cw) with
  | none => simp [HasOperands, hreg]
  | some r => by_cases hr : r = .status <;> simp [HasOperands, hreg, hr, eq_comm]

theorem decodeRd_eq_ok_iff {cw : CmdWord} {i : Instr} :
    decodeRd cw = .ok i ↔ ∃ r, i = .rd r ∧ HasOperands cw (.rd r) := by
  rw [decodeRd]
  cases hreg : regOfIndex (rField cw) <;> simp [HasOperands, hreg, eq_comm]

theorem decodeRow_eq_ok_iff {m f cw : CmdWord} {answer : Except IllegalCause Instr} {i : Instr} :
    decodeRow m f cw answer = .ok i ↔ cw &&& m = f ∧ answer = .ok i := by
  simp only [decodeRow, rowMatches, beq_iff_eq]
  split_ifs with h <;> simp [h]

/-! What a word that matches a row is made of -/

/-- The opcode of a command (R94). -/
@[simp] def opcode : Instr → BitVec 8
  | .wr _ _ => 0x01
  | .rd _ => 0x02
  | .tbuild => 0x10
  | .trd _ _ => 0x11
  | .stepb _ => 0x20
  | .stepw _ => 0x21
  | .update | .updateNb => 0x30
  | .comb32 => 0x40
  | .comb64 => 0x41

/-- How many low bits of `fn` the operands of a command take (R92). -/
@[simp] def fnBits : Instr → Nat
  | .wr _ _ | .rd _ => 4
  | .trd _ _ => 11
  | .update | .updateNb => 1
  | .tbuild | .stepb _ | .stepw _ | .comb32 | .comb64 => 0

/-- How many low bits of `imm32` the operands of a command take (R92). -/
@[simp] def immBits : Instr → Nat
  | .wr _ _ | .stepw _ => 32
  | .stepb _ => 8
  | .rd _ | .tbuild | .trd _ _ | .update | .updateNb | .comb32 | .comb64 => 0

/-- The match value of a row is the opcode alone. -/
theorem fixed_eq (i : Instr) : fixed i = cmdWord (opcode i) 0 0 := by
  cases i <;> (simp only [fixed, opcode]; decide)

/-- The mask of a row is the opcode and every bit above the operands. -/
theorem mask_eq (i : Instr) :
    mask i = cmdWord 0xFF (BitVec.allOnes 24 <<< fnBits i) (BitVec.allOnes 32 <<< immBits i) := by
  cases i <;> (simp only [mask, fnBits, immBits]; decide)

/-- A value without a bit from `k` up is its low `k` bits. -/
theorem setWidth_setWidth_of_high_zero {w k : Nat} {v : BitVec w} (h : v &&& BitVec.allOnes w <<< k = 0) :
    (v.setWidth k).setWidth w = v := by
  apply BitVec.eq_of_getLsbD_eq
  intro i hi
  have hbit : v.getLsbD i = true → i < k := by
    simpa [hi] using congrArg (·.getLsbD i) h
  simpa [hi] using hbit

theorem fnBits_le (i : Instr) : fnBits i ≤ 24 := by cases i <;> simp
theorem immBits_le (i : Instr) : immBits i ≤ 32 := by cases i <;> simp

/-- A word that matches a command's row is its opcode and the bits of its operands. -/
theorem eq_cmdWord_of_row {cw : CmdWord} {i : Instr} (hrow : cw &&& mask i = fixed i) :
    cw = cmdWord (opcode i) ((cw.extractLsb' 32 (fnBits i)).setWidth 24)
      ((cw.extractLsb' 0 (immBits i)).setWidth 32) := by
  have hand : cmdWord (opField cw &&& 0xFF) (cw.extractLsb' 32 24 &&& BitVec.allOnes 24 <<< fnBits i)
      (imm32Field cw &&& BitVec.allOnes 32 <<< immBits i) = cmdWord (opcode i) 0 0 := by
    rw [← cmdWord_and_cmdWord, cmdWord_fields, ← mask_eq, ← fixed_eq, hrow]
  have hop : opField cw = opcode i := by
    calc opField cw = opField cw &&& 0xFF := BitVec.and_allOnes.symm
      _ = opcode i := by simpa only [opField_cmdWord] using congrArg opField hand
  rw [show opField cw &&& 0xFF = opcode i from BitVec.and_allOnes.trans hop] at hand
  obtain ⟨hfn, himm⟩ := cmdWord_eq_op_iff.mp hand
  have hcw := (cmdWord_fields cw).symm
  rwa [hop, ← setWidth_setWidth_of_high_zero hfn, ← setWidth_setWidth_of_high_zero himm, imm32Field,
    BitVec.setWidth_extractLsb'_of_le (fnBits_le i), BitVec.setWidth_extractLsb'_of_le (immBits_le i)] at hcw

/-- A word that matches a command's row has the command's opcode. -/
theorem opField_of_row {cw : CmdWord} {i : Instr} (hrow : cw &&& mask i = fixed i) : opField cw = opcode i := by
  rw [eq_cmdWord_of_row hrow, opField_cmdWord]

/-! What a word decodes to -/

/-- The opcode leads to the command's row, and that row's answer is the command. -/
theorem decode_of_row {cw : CmdWord} {i : Instr} (hrow : cw &&& mask i = fixed i) (hops : HasOperands cw i) :
    decode cw = .ok i := by
  rw [decode, opField_of_row hrow]
  cases i with
  | wr r d => exact decodeRow_eq_ok_iff.mpr ⟨hrow, decodeWr_eq_ok_iff.mpr ⟨r, d, rfl, hops⟩⟩
  | rd r => exact decodeRow_eq_ok_iff.mpr ⟨hrow, decodeRd_eq_ok_iff.mpr ⟨r, rfl, hops⟩⟩
  | trd k n =>
    obtain ⟨rfl, rfl⟩ := hops
    exact decodeRow_eq_ok_iff.mpr ⟨hrow, rfl⟩
  | stepb imm8 =>
    obtain rfl := hops
    exact decodeRow_eq_ok_iff.mpr ⟨hrow, rfl⟩
  | stepw w =>
    obtain rfl := hops
    exact decodeRow_eq_ok_iff.mpr ⟨hrow, rfl⟩
  | update => exact decodeRow_eq_ok_iff.mpr ⟨hrow, congrArg Except.ok (if_pos hops)⟩
  | updateNb => exact decodeRow_eq_ok_iff.mpr ⟨hrow, congrArg Except.ok (if_neg (Bool.eq_false_iff.mp hops))⟩
  | tbuild | comb32 | comb64 => exact decodeRow_eq_ok_iff.mpr ⟨hrow, rfl⟩

/-- Row by row in the order of R94: only a word that matches is answered with a command. -/
theorem row_of_decode {cw : CmdWord} {i : Instr} (h : decode cw = .ok i) :
    cw &&& mask i = fixed i ∧ HasOperands cw i := by
  by_cases hop : opField cw ∈ definedOps
  case neg => exact nomatch (decode_of_not_definedOp hop).symm.trans h
  simp only [definedOps, List.mem_cons, List.not_mem_nil, or_false] at hop
  rcases hop with hop | hop | hop | hop | hop | hop | hop | hop | hop <;>
    (rw [decode, hop] at h; obtain ⟨hrow, hanswer⟩ := decodeRow_eq_ok_iff.mp h)
  · obtain ⟨r, d, rfl, hops⟩ := decodeWr_eq_ok_iff.mp hanswer
    exact ⟨hrow, hops⟩
  · obtain ⟨r, rfl, hops⟩ := decodeRd_eq_ok_iff.mp hanswer
    exact ⟨hrow, hops⟩
  all_goals obtain rfl := Except.ok.inj hanswer
  · exact ⟨hrow, trivial⟩
  · exact ⟨hrow, rfl, rfl⟩
  · exact ⟨hrow, rfl⟩
  · exact ⟨hrow, rfl⟩
  · cases hp : cw.getLsbD 32 <;> exact ⟨hrow, hp⟩
  · exact ⟨hrow, trivial⟩
  · exact ⟨hrow, trivial⟩

/-- R102: the words that decode to a command. -/
theorem decode_eq_ok_iff {cw : CmdWord} {i : Instr} :
    decode cw = .ok i ↔ cw &&& mask i = fixed i ∧ HasOperands cw i :=
  ⟨row_of_decode, fun ⟨hrow, hops⟩ => decode_of_row hrow hops⟩

/-! The word of a command -/

/-- The word of a command matches its row. -/
theorem encode_and_mask : (i : Instr) → encode i &&& mask i = fixed i
  | .wr r d => Laws.EncodeRow.wr r d
  | .rd r => Laws.EncodeRow.rd r
  | .tbuild => Laws.EncodeRow.tbuild
  | .trd k n => Laws.EncodeRow.trd k n
  | .stepb imm8 => Laws.EncodeRow.stepb imm8
  | .stepw w => Laws.EncodeRow.stepw w
  | .update => Laws.EncodeRow.update
  | .updateNb => Laws.EncodeRow.updateNb
  | .comb32 => Laws.EncodeRow.comb32
  | .comb64 => Laws.EncodeRow.comb64

theorem rField_cmdWord (op : BitVec 8) (r : BitVec 4) (imm : Word) : rField (cmdWord op (r.setWidth 24) imm) = r := by
  rw [rField, fnField_cmdWord op _ imm 0 4 (by omega), BitVec.extractLsb'_setWidth_of_le (by omega),
    BitVec.extractLsb'_eq_self]

section
variable (op : BitVec 8) (k : BitVec 3) (n : Byte) (imm : Word)

theorem kField_cmdWord : kField (cmdWord op ((k ++ n).setWidth 24) imm) = k := by
  rw [kField, fnField_cmdWord op _ imm 8 3 (by omega), BitVec.extractLsb'_setWidth_of_le (by omega),
    BitVec.extractLsb'_append_eq_left]

theorem nField_cmdWord : nField (cmdWord op ((k ++ n).setWidth 24) imm) = n := by
  rw [nField, fnField_cmdWord op _ imm 0 8 (by omega), BitVec.extractLsb'_setWidth_of_le (by omega),
    BitVec.extractLsb'_append_eq_right]

end

/-- The fields of the word of a legal command are its operands. -/
theorem hasOperands_encode {i : Instr} (hwf : i.wf = true) : HasOperands (encode i) i := by
  cases i with
  | wr r d =>
    refine ⟨bne_iff_ne.mp hwf, ?_, imm32Field_cmdWord _ _ d⟩
    rw [encode, rField_cmdWord, regOfIndex_regIndex]
  | rd r => rw [HasOperands, encode, rField_cmdWord, regOfIndex_regIndex]
  | trd k n => exact ⟨kField_cmdWord 0x11 k n 0, nField_cmdWord 0x11 k n 0⟩
  | stepb imm8 => simp [HasOperands, encode, imm8Field_cmdWord]
  | stepw w => exact imm32Field_cmdWord 0x21 0 w
  | update => rfl
  | updateNb => rfl
  | tbuild | comb32 | comb64 => trivial

/-- Settles O1: the word of a legal command matches its row, and its fields are the command's operands. -/
theorem decodeOfEncodedCommand : Obligations.DecodeOfEncodedCommand :=
  fun i hwf => decode_eq_ok_iff.mpr ⟨encode_and_mask i, hasOperands_encode hwf⟩

/-! The word of a decoded command -/

/-- The fields that a matching word is made of are the operands that the command's word is made of. -/
theorem encode_of_row {cw : CmdWord} {i : Instr} (hrow : cw &&& mask i = fixed i) (hops : HasOperands cw i) :
    encode i = cw := by
  rw [eq_cmdWord_of_row hrow]
  cases i with
  | wr r d =>
    obtain ⟨-, hreg, rfl⟩ := hops
    simp [encode, regIndex_of_regOfIndex hreg, rField, imm32Field]
  | rd r => simp [encode, regIndex_of_regOfIndex hops, rField]
  | trd k n =>
    obtain ⟨rfl, rfl⟩ := hops
    have happend : kField cw ++ nField cw = cw.extractLsb' 32 11 :=
      BitVec.extractLsb'_append_extractLsb'_eq_extractLsb' rfl
    simp [encode, happend]
  | stepb imm8 =>
    obtain rfl := hops
    simp [encode, imm8Field]
  | stepw w =>
    obtain rfl := hops
    simp [encode, imm32Field]
  | update =>
    rw [HasOperands, BitVec.getLsbD_eq_extractLsb', beq_iff_eq] at hops
    simp [encode, hops]
  | updateNb =>
    rw [HasOperands, BitVec.getLsbD_eq_extractLsb', beq_eq_false_iff_ne] at hops
    simp [encode, (BitVec.eq_zero_or_eq_one _).resolve_right hops]
  | tbuild | comb32 | comb64 => simp [encode]

/-- Settles O2: the word matches its row, so its operand fields are all that it has besides the opcode. -/
theorem decodedWordIsItsEncoding : Obligations.DecodedWordIsItsEncoding := by
  intro cw i hdec
  obtain ⟨hrow, hops⟩ := decode_eq_ok_iff.mp hdec
  exact ⟨wf_of_decode hdec, encode_of_row hrow hops⟩

/-- Settles O4: the decoder, evaluated on each word. -/
theorem sampleWordsDecode : Obligations.SampleWordsDecode := by
  unfold Obligations.SampleWordsDecode
  decide

end Sys2Proof.Machine
end

section
/-!
The two ports of the host (30_encoding.md section 1): what an illegal word does, which commands respond, when a word is
accepted, and how responses are taken.
-/

namespace Sys2Proof.Machine

/-- Settles O3: the words the decoder refuses, and the step of a refused word. -/
theorem illegalWordsSetOnlyIll : Obligations.IllegalWordsSetOnlyIll := by
  refine fun cw => ⟨decode_isError_iff_illegalWord cw, fun s rest hill hidle hin => ?_⟩
  obtain ⟨c, hdec⟩ := (decode_isError_iff_illegalWord cw).mpr hill
  exact step_of_present_illegal hidle hin hdec

@[simp] theorem combine_responses (len : BitVec 64) (s : State) : (combine len s).responses = s.responses := by
  rcases combine_cases len s with h | h
  · rw [h]
  · rw [h, spoilCombiner_responses]

/-- No command but `RD` and `TRD` touches the response queue (R93). -/
theorem effect_responses {i : Instr} (s : State) (hrd : ∀ r, i ≠ .rd r) (htrd : ∀ k n, i ≠ .trd k n) :
    (effect i s).responses = s.responses := by
  cases i with
  | wr r d => exact writeReg_responses r d s
  | rd r => exact absurd rfl (hrd r)
  | trd k n => exact absurd rfl (htrd k n)
  | update => rcases effect_update_cases s with h | h <;> rw [h] <;> rfl
  | comb32 => exact combine_responses _ s
  | comb64 => exact combine_responses _ s
  | tbuild | stepb | stepw | updateNb => rfl

/-- Settles O21: `RD` and `TRD` each end in one `respond`. -/
theorem onlyRdAndTrdRespond : Obligations.OnlyRdAndTrdRespond := by
  refine fun i s => ⟨effect i s, exec_eq_next_effect i s, ?_, effect_responses s⟩
  rintro (⟨r, rfl⟩ | ⟨k, n, rfl⟩)
  · exact ⟨readReg r s, rfl⟩
  · exact ⟨lookup (currentTable s) k n, rfl⟩

/-- No command touches what the host does next. -/
@[simp] theorem effect_inputs (i : Instr) (s : State) : (effect i s).inputs = s.inputs := by
  obtain ⟨r, d, rfl⟩ | h := effect_cases i s
  · exact writeReg_inputs r d s
  · exact h.inputs

/-- Settles O7: an accepted word is a command or illegal, and either completes. -/
theorem wordAcceptedExactlyWhenNotBusy : Obligations.WordAcceptedExactlyWhenNotBusy := by
  refine fun s cw rest hin => ⟨fun hidle => ?_, fun hbusy => ?_⟩
  · cases hdec : decode cw with
    | ok i => exact ⟨_, step_eq_next_iff.mpr (.command cw rest i hin hidle hdec), by simp, rfl⟩
    | error c => exact ⟨_, step_of_present_illegal hidle hin hdec, rfl, rfl⟩
  · exact step_eq_next_iff.mpr (.wait cw rest hin hbusy)

/-- Settles O10: the oldest response is the head of the queue. -/
theorem responsesAreTakenInOrder : Obligations.ResponsesAreTakenInOrder := by
  refine fun s rest hin => ⟨fun v later hresp => ?_, fun hresp => ?_⟩
  · rw [step_of_inputs_takeResponse hin, takeResponse_of_cons rest hresp]
  · rw [step_of_inputs_takeResponse hin, takeResponse_of_nil rest hresp]

end Sys2Proof.Machine
end

section
/-!
Register access (40_register_access.md): what a register reads as after a write, the bits of `STATUS` and `CTRL`, and the
statements about `WR` and `RD`.
-/

namespace Sys2Proof.Machine

theorem exec_wr (r : Reg) (d : Word) (s : State) : exec (.wr r d) s = .next (writeReg r d s) :=
  exec_eq_next_effect (.wr r d) s

theorem exec_rd (r : Reg) (s : State) : exec (.rd r) s = .next (respond (readReg r s) s) :=
  exec_eq_next_effect (.rd r) s

/-! The values of `CTRL` and `STATUS` -/

theorem ctrlWord_eq_ite (s : State) : ctrlWord s = if s.wordEn then 1 else 0 := by
  rw [ctrlWord]
  cases s.wordEn <;> rfl

/-- `CTRL` reads back bit 0 of what was written and zeros above it (R122). -/
theorem ctrlWord_of_wordEnOf {s : State} {d : Word} (h : s.wordEn = wordEnOf d) : ctrlWord s = d &&& 1 := by
  have hand : d &&& 1 = (BitVec.ofBool (d.getLsbD 0)).setWidth 32 := BitVec.and_one_eq_setWidth_ofBool_getLsbD
  rw [ctrlWord_eq_ite, h, wordEnOf, hand]
  cases d.getLsbD 0 <;> rfl

/-- R123, bit by bit. -/
theorem statusWord_getLsbD (s : State) (i : Nat) :
    (statusWord s).getLsbD i =
      if i = 0 then statusTv s else if i = 1 then s.be else if i = 2 then s.ill else if i = 3 then Config.vecCap
      else false := by
  rw [statusWord, BitVec.getLsbD_append, BitVec.getLsbD_append, BitVec.getLsbD_append, BitVec.getLsbD_append]
  match i with
  | 0 | 1 | 2 | 3 => simp
  | i + 4 => simp

/-- No write of another register changes what `STATUS` is made of: `ILL`, the strap and whether the table is there. -/
theorem statusWord_writeReg {r : Reg} (v : Word) (s : State) (h : r ≠ .status) :
    statusWord (writeReg r v s) = statusWord s := by
  simp only [statusWord, statusTv, writeReg_tbl, writeReg_be, writeReg_ill r v s h]

/-! Reading after a write -/

theorem readReg_writeReg_same {r : Reg} (v : Word) (s : State) (h : r ≠ .status) :
    readReg r (writeReg r v s) = if r = .ctrl then v &&& 1 else v := by
  cases r with
  | ctrl => exact ctrlWord_of_wordEnOf rfl
  | status => exact absurd rfl h
  | _ => rfl

theorem readReg_writeReg_of_ne {q r : Reg} (v : Word) (s : State) (h : q ≠ r) :
    readReg q (writeReg r v s) = readReg q s := by
  cases q with
  | status => exact statusWord_writeReg v s h.symm
  | ctrl => cases r <;> simp_all [ctrlWord]
  | _ => cases r <;> simp_all

/-! The statements -/

/-- Settles O27: `RD` responds what the written register then reads as, and the write shows in no other register. -/
theorem readBackAfterWrite : Obligations.ReadBackAfterWrite := by
  refine fun r d s hr => ⟨writeReg r d s, exec_wr r d s, ?_, fun q hq => readReg_writeReg_of_ne d s hq⟩
  rw [exec_rd, readReg_writeReg_same d s hr, respond, writeReg_responses]

/-- Settles O24: the command is `writeReg`, and each clause is its equation for one register. -/
theorem wrWritesTheNamedRegister : Obligations.WrWritesTheNamedRegister := fun d s =>
  ⟨exec_wr .crc d s, exec_wr .crcb d s, exec_wr .addr d s, exec_wr .len d s, exec_wr .lenh d s, exec_wr .acc d s,
    exec_wr .ctrl d s, exec_wr .status d s⟩

/-- Settles O25: the command responds `readReg`, which for `CTRL` is `WORD_EN` with zeros above it (R30). -/
theorem rdRespondsTheNamedRegister : Obligations.RdRespondsTheNamedRegister := by
  intro s
  have hctrl := exec_rd .ctrl s
  rw [readReg_ctrl, ctrlWord_eq_ite] at hctrl
  exact ⟨exec_rd .crc s, exec_rd .crcb s, exec_rd .addr s, exec_rd .len s, exec_rd .lenh s, exec_rd .acc s, hctrl,
    exec_rd .status s⟩

/-- Settles O26: the response is the value of `STATUS`, whose bits are those of R123; `VEC` is 0 on this hardware (R35). -/
theorem statusReadsItsFourBits : Obligations.StatusReadsItsFourBits := by
  refine fun s => ⟨statusWord s, exec_rd .status s, statusWord_getLsbD s 0, statusWord_getLsbD s 1,
    statusWord_getLsbD s 2, statusWord_getLsbD s 3, fun i hi => ?_⟩
  rw [statusWord_getLsbD, if_neg (by omega), if_neg (by omega), if_neg (by omega), if_neg (by omega)]

end Sys2Proof.Machine
end

section
/-!
The table generator (41_table_generator.md): what `ensure_table()` leaves, which commands run it, the rules of the
table's entries, and the statements about `TBUILD` and `TRD`.
-/

namespace Sys2Proof.Machine

theorem exec_tbuild (s : State) : exec .tbuild s = .next (ensureTable s) :=
  exec_eq_next_effect .tbuild s

theorem exec_trd (k : BitVec 3) (n : Byte) (s : State) :
    exec (.trd k n) s = .next (respond (lookup (currentTable s) k n) (ensureTable s)) :=
  exec_eq_next_effect (.trd k n) s

/-! Building the table -/

/-- From a table that is absent or right, `ensure_table()` leaves the table of the rules (R133, R134). -/
theorem ensureTable_of_ok {s : State} (h : TableOk s) : ensureTable s = { s with tbl := some buildTable } := by
  rw [ensureTable, currentTable_of_ok h]

/-- The commands of R139's first list run `ensure_table()`. -/
theorem effect_tbl_of_usesTable {i : Instr} {s : State} (h : UsesTable i s) :
    (effect i s).tbl = some (currentTable s) := by
  obtain rfl | ⟨k, n, rfl⟩ | ⟨b, rfl⟩ | ⟨w, rfl⟩ | ⟨rfl, hlen⟩ := h
  · rfl
  · rfl
  · rfl
  · rfl
  · rw [effect_update_of_len_ne_zero s hlen]
    rfl

/-- The commands of R139's second list leave the table alone. -/
theorem effect_tbl_of_not_usesTable {i : Instr} {s : State} (h : ¬ UsesTable i s) : (effect i s).tbl = s.tbl := by
  simp only [UsesTable, not_or, not_exists] at h
  obtain ⟨htbuild, htrd, hstepb, hstepw, hupdate⟩ := h
  cases i with
  | wr r d => exact writeReg_tbl r d s
  | rd r => rfl
  | tbuild => exact absurd rfl htbuild
  | trd k n => exact absurd rfl (htrd k n)
  | stepb b => exact absurd rfl (hstepb b)
  | stepw w => exact absurd rfl (hstepw w)
  | update =>
    have hlen : s.len = 0 := by_contra fun hlen => hupdate ⟨rfl, hlen⟩
    rw [effect_update_of_len_zero s hlen]
    rfl
  | updateNb => rfl
  | comb32 => exact combine_tbl _ s
  | comb64 => exact combine_tbl _ s

/-! The rules of the entries -/

theorem bitSteps_eq_iterate (j : Nat) (c : Word) : bitSteps j c = crcBitStep^[j] c := by
  induction j generalizing c with
  | zero => rfl
  | succ j ih => exact ih (crcBitStep c)

theorem tableValue_of_lt_four {k : Nat} (n : Byte) (h : k < 4) : tableValue k n = tableSetLow k n := if_pos h

/-- Set 0 (R130). -/
theorem tableValue_zero (n : Byte) : tableValue 0 n = crcBitStep^[8] (n.setWidth 32) := bitSteps_eq_iterate 8 _

/-- Each of sets 1 to 3 from the one before (R131). -/
theorem tableValue_succ {k : Nat} (n : Byte) (h : k + 1 < 4) :
    tableValue (k + 1) n = tableValue 0 ((tableValue k n).extractLsb' 0 8) ^^^ (tableValue k n >>> 8) := by
  rw [tableValue_of_lt_four n h, tableValue_of_lt_four n (Nat.lt_of_succ_lt h)]
  rfl

/-- Sets 4 to 7 are sets 0 to 3 with their bytes reversed (R132). -/
theorem tableValue_add_four {k : Nat} (n : Byte) (h : k < 4) : tableValue (k + 4) n = bswap (tableValue k n) := by
  rw [tableValue_of_lt_four n h]
  exact if_neg (by omega)

/-- Index 0 of sets 0 to 3 is 0, because the bit step keeps 0. -/
theorem tableSetLow_index_zero (k : Nat) : tableSetLow k 0 = 0 :=
  (tableSetLow_eq_bitSteps k 0).trans (bitSteps_zero _)

theorem tableValue_index_zero (k : Nat) : tableValue k 0 = 0 := by
  rw [tableValue, tableSetLow_index_zero, tableSetLow_index_zero]
  split
  · rfl
  · rfl

/-! The statements -/

/-- Settles O28: `TBUILD` is `ensure_table()`, which does nothing to a built table. -/
theorem tbuildIsIdempotent : Obligations.TbuildIsIdempotent := by
  refine fun s hok => ⟨?_, ?_⟩
  · rw [exec_tbuild, ensureTable_of_ok hok]
  · rw [exec_tbuild, ensureTable_of_built rfl]

/-- Settles O22: a command runs `ensure_table()`, which builds an absent table, or leaves the table alone. -/
theorem whichCommandsBuildTheTable : Obligations.WhichCommandsBuildTheTable := by
  refine fun i s habsent => ⟨effect i s, exec_eq_next_effect i s, fun huses => ?_, fun hnot => ?_⟩
  · rw [effect_tbl_of_usesTable huses, currentTable_of_absent habsent]
  · rw [effect_tbl_of_not_usesTable hnot, habsent]

/-- Settles O29: the value responded is `tableValue`, which meets the rules of R130 to R132. -/
theorem trdRespondsTheTableOfTheRules : Obligations.TrdRespondsTheTableOfTheRules := by
  refine ⟨fun k n => tableValue k.toNat n, fun k n s hok => ?_, tableValue_zero, fun k n hlo hhi => ?_,
    fun k n hk => ?_, fun k => tableValue_index_zero k.toNat⟩
  · rw [exec_trd, currentTable_of_ok hok, lookup_buildTable, ensureTable_of_ok hok, respond]
  · have hpred : k.toNat = (k - 1).toNat + 1 := by bv_omega
    change tableValue k.toNat n = _
    rw [hpred]
    exact tableValue_succ n (by omega)
  · have hadd : (k + 4).toNat = k.toNat + 4 := by bv_omega
    change tableValue (k + 4).toNat n = _
    rw [hadd]
    exact tableValue_add_four n (by omega)

end Sys2Proof.Machine
end

section
/-!
The byte update engine (42_byte_update.md): the byte step by its one lookup, by eight bit steps and on a byte-swapped
register, and the statement about `STEPB`.
-/

namespace Sys2Proof.Machine

theorem exec_stepb (b : Byte) (s : State) :
    exec (.stepb b) s = .next (writeReg .acc (byteStep (currentTable s) s.acc b) (ensureTable s)) :=
  exec_eq_next_effect (.stepb b) s

/-- The table a reader sees is the stored one, or the one it builds (R134). -/
theorem currentTable_of_storedOrBuilt {s : State} {t : Table} (h : s.tbl = some t ∨ (s.tbl = none ∧ t = buildTable)) :
    currentTable s = t := by
  obtain hbuilt | ⟨habsent, rfl⟩ := h
  · exact currentTable_of_built hbuilt
  · exact currentTable_of_absent habsent

/-- With the table of the rules, the byte step is an entry of set 0 and a shift (R150). -/
theorem byteStep_buildTable (c : Word) (b : Byte) :
    byteStep buildTable c b = tableValue 0 ((c ^^^ b.setWidth 32).extractLsb' 0 8) ^^^ (c >>> 8) := by
  rw [byteStep, lookup_buildTable]
  rfl

/-- A byte exclusive-ored into the low end is shifted out by eight positions. -/
theorem xor_byte_ushiftRight_eight (c : Word) (b : Byte) : (c ^^^ b.setWidth 32) >>> 8 = c >>> 8 := by
  have hbyte : b.setWidth 32 >>> 8 = 0#32 := by
    apply BitVec.eq_of_getLsbD_eq
    intro i hi
    rw [BitVec.getLsbD_ushiftRight, BitVec.getLsbD_setWidth, BitVec.getLsbD_of_ge b _ (by omega), Bool.and_false,
      BitVec.getLsbD_zero]
  rw [BitVec.ushiftRight_xor_distrib, hbyte, BitVec.xor_zero]

/-- The byte step is eight bit steps (R152). -/
theorem byteStep_buildTable_eq_bitSteps (c : Word) (b : Byte) :
    byteStep buildTable c b = bitSteps 8 (c ^^^ b.setWidth 32) := by
  rw [bitSteps_eight, xor_byte_ushiftRight_eight, byteStep_buildTable]
  rfl

/-- The top byte of a byte-reversed word is the low byte of the word. -/
theorem bswap_ushiftRight_extract_low (v : Word) : (bswap v >>> 24).extractLsb' 0 8 = v.extractLsb' 0 8 := by
  obtain ⟨-, -, -, htop⟩ := extract_bswap v
  rw [← htop]
  rfl

/-! The statements -/

/-- Settles O31: the bit step is linear, so the byte's eight steps are one entry of set 0, and the rest is shifted. -/
theorem byteStepIsEightBitSteps : Obligations.ByteStepIsEightBitSteps := fun c b =>
  (byteStep_buildTable_eq_bitSteps c b).trans (bitSteps_eq_iterate 8 _)

/-- Settles O32: both forms look up the same index, and `bswap` turns an entry of set 0 into one of set 4 and the shift
around. -/
theorem byteStepOnSwappedRegister : Obligations.ByteStepOnSwappedRegister := by
  intro c b
  have hindex : (bswap c >>> 24 ^^^ b.setWidth 32).extractLsb' 0 8 = (c ^^^ b.setWidth 32).extractLsb' 0 8 := by
    rw [BitVec.extractLsb'_xor, BitVec.extractLsb'_xor, bswap_ushiftRight_extract_low]
  rw [hindex, byteStep_buildTable, bswap_xor, bswap_ushiftRight_eight, lookup_buildTable]
  exact congrArg (· ^^^ bswap c <<< 8) (tableValue_add_four _ (by decide)).symm

/-- Settles O30: `STEPB` is `ensure_table()` and then the byte step on `ACC`. -/
theorem stepbLooksUpOneEntry : Obligations.StepbLooksUpOneEntry := by
  intro b s t htable
  rw [exec_stepb, ensureTable, currentTable_of_storedOrBuilt htable]
  rfl

end Sys2Proof.Machine
end

section
/-!
The word folding unit (43_word_folding.md): both word steps by bit steps, the word step on packed bytes as four byte
steps, and the statements about `STEPW`.
-/

namespace Sys2Proof.Machine

theorem exec_stepw (w : Word) (s : State) :
    exec (.stepw w) s = .next (writeReg .acc (wordStep s.be (currentTable s) s.acc w) (ensureTable s)) :=
  exec_eq_next_effect (.stepw w) s

/-! The two step commands, by the table that they see -/

theorem exec_stepb_of_currentTable (b : Byte) {s : State} {t : Table} (h : currentTable s = t) :
    exec (.stepb b) s = .next { s with tbl := some t, acc := byteStep t s.acc b } := by
  rw [exec_stepb, ensureTable, h]
  rfl

theorem exec_stepw_of_currentTable (w : Word) {s : State} {t : Table} (h : currentTable s = t) :
    exec (.stepw w) s = .next { s with tbl := some t, acc := wordStep s.be t s.acc w } := by
  rw [exec_stepw, ensureTable, h]
  rfl

/-! The bit steps of a word, byte by byte -/

/-- The bits above the lowest `j` are only shifted by the first `j` steps, so the low bits are stepped apart from them. -/
theorem bitSteps_low_high (j k : Nat) (v : Word) :
    bitSteps (j + k) v = bitSteps (j + k) ((v.extractLsb' 0 j).setWidth 32) ^^^ bitSteps k (v >>> j) := by
  have hhigh : bitSteps j (v >>> j <<< j) = v >>> j := by
    rw [bitSteps_of_low_zero, shift_shift_cancel]
    intro i hi
    simp [BitVec.getLsbD_shiftLeft, hi]
  conv_lhs => rw [← low_xor_high v j, bitSteps_xor, bitSteps_add j k (v >>> j <<< j), hhigh]

/-- The low byte of what is stepped is one entry of the table; the bytes above it are stepped 8 times less (R131). -/
theorem bitSteps_lane (k : Nat) (v : Word) :
    bitSteps (8 + 8 * k) v = tableSetLow k (v.extractLsb' 0 8) ^^^ bitSteps (8 * k) (v >>> 8) := by
  rw [bitSteps_low_high, tableSetLow_eq_bitSteps, Nat.mul_succ, Nat.add_comm (8 * k)]

/-- Folding the low byte of a word into the register first, and then the bytes above it, folds the word (R164). -/
theorem bitSteps_xor_word (k : Nat) (c w : Word) :
    bitSteps (8 + 8 * k) (c ^^^ w) = bitSteps (8 * k) (byteStep buildTable c (w.extractLsb' 0 8) ^^^ w >>> 8) := by
  rw [bitSteps_xor, bitSteps_low_high 8 (8 * k) w, byteStep_buildTable_eq_bitSteps, bitSteps_xor (8 * k), ← bitSteps_add,
    bitSteps_xor (8 + 8 * k), BitVec.xor_assoc]

theorem bitSteps_eight_mul_zero (c : Word) : bitSteps (8 * 0) c = c := rfl

/-- The bytes of a word are the low bytes it has as it is shifted out, and then nothing is left. -/
theorem shifted_out_bytes (v : Word) :
    (v >>> 8).extractLsb' 0 8 = v.extractLsb' 8 8 ∧ (v >>> 8 >>> 8).extractLsb' 0 8 = v.extractLsb' 16 8 ∧
      (v >>> 8 >>> 8 >>> 8).extractLsb' 0 8 = v.extractLsb' 24 8 ∧ v >>> 8 >>> 8 >>> 8 >>> 8 = 0#32 := by
  simp only [← BitVec.shiftRight_add]
  exact ⟨rfl, rfl, rfl, BitVec.ushiftRight_eq_zero le_rfl⟩

/-! The word steps -/

/-- The four lookups of the little-endian word step are the four lanes of 32 bit steps (R161). -/
theorem wordStepLe_buildTable (c w : Word) : wordStepLe buildTable c w = bitSteps 32 (c ^^^ w) := by
  obtain ⟨h1, h2, h3, hnone⟩ := shifted_out_bytes (c ^^^ w)
  rw [bitSteps_lane 3, bitSteps_lane 2, bitSteps_lane 1, bitSteps_lane 0, bitSteps_eight_mul_zero, h1, h2, h3, hnone,
    BitVec.xor_zero, ← BitVec.xor_assoc, ← BitVec.xor_assoc]
  simp only [wordStepLe, lookup_buildTable]
  rfl

/-- An entry of sets 4 to 7, its bytes reversed again, is the entry of the set 4 below (R132). -/
theorem bswap_lookup_of_add_four {j k : BitVec 3} (h : j.toNat = k.toNat + 4) (n : Byte) :
    bswap (lookup buildTable j n) = lookup buildTable k n := by
  have hk : k.toNat < 4 := by bv_omega
  rw [lookup_buildTable, lookup_buildTable, h, tableValue_add_four n hk, bswap_bswap]

/-- The big-endian word step is the little-endian one of the byte-reversed word: `bswap` turns the lanes around and the
entries of sets 4 to 7 into those of sets 0 to 3 (R162). -/
theorem wordStepBe_buildTable (c w : Word) : wordStepBe buildTable c w = wordStepLe buildTable c (bswap w) := by
  have hswap : bswap c ^^^ w = bswap (c ^^^ bswap w) := by rw [bswap_xor, bswap_bswap]
  obtain ⟨h0, h1, h2, h3⟩ := extract_bswap (c ^^^ bswap w)
  have hset0 := bswap_lookup_of_add_four (j := 4) (k := 0) rfl
  have hset1 := bswap_lookup_of_add_four (j := 5) (k := 1) rfl
  have hset2 := bswap_lookup_of_add_four (j := 6) (k := 2) rfl
  have hset3 := bswap_lookup_of_add_four (j := 7) (k := 3) rfl
  rw [wordStepBe, hswap, h0, h1, h2, h3, bswap_xor, bswap_xor, bswap_xor, hset0, hset1, hset2, hset3, wordStepLe]
  ac_rfl

/-- 32 bit steps on the register with a packed word are four byte steps (R164). -/
theorem bitSteps_xor_packWord (c : Word) (b0 b1 b2 b3 : Byte) :
    bitSteps 32 (c ^^^ packWord false b0 b1 b2 b3) = [b0, b1, b2, b3].foldl (byteStep buildTable) c := by
  obtain ⟨h0, h1, h2, h3⟩ := extract_bytes b3 b2 b1 b0
  obtain ⟨hs1, hs2, hs3, hnone⟩ := shifted_out_bytes (packWord false b0 b1 b2 b3)
  rw [bitSteps_xor_word 3, bitSteps_xor_word 2, bitSteps_xor_word 1, bitSteps_xor_word 0, bitSteps_eight_mul_zero, hs1,
    hs2, hs3, hnone, BitVec.xor_zero, packWord, if_neg Bool.false_ne_true, h0, h1, h2, h3]
  rfl

/-- The word step on four packed bytes is their four byte steps in stream order, in either byte order (R164). -/
theorem wordStep_packWord (be : Bool) (c : Word) (b0 b1 b2 b3 : Byte) :
    wordStep be buildTable c (packWord be b0 b1 b2 b3) = [b0, b1, b2, b3].foldl (byteStep buildTable) c := by
  rw [← bitSteps_xor_packWord, ← wordStepLe_buildTable]
  cases be with
  | false => rfl
  | true =>
    rw [packWord_true]
    exact (wordStepBe_buildTable c _).trans (by rw [bswap_bswap])

/-! The statements -/

/-- Settles O34: each command sees the table of the rules, and the word step is the four byte steps. -/
theorem stepwEqualsFourStepb : Obligations.StepwEqualsFourStepb := by
  intro b0 b1 b2 b3 s hok
  have hword (be : Bool) (hbe : s.be = be) :
      exec (.stepw (packWord be b0 b1 b2 b3)) s =
        .next { s with tbl := some buildTable, acc := [b0, b1, b2, b3].foldl (byteStep buildTable) s.acc } := by
    rw [exec_stepw_of_currentTable _ (currentTable_of_ok hok), ← wordStep_packWord be, hbe]
  exact ⟨_, _, _, _, exec_stepb_of_currentTable b0 (currentTable_of_ok hok), exec_stepb_of_currentTable b1 rfl,
    exec_stepb_of_currentTable b2 rfl, exec_stepb_of_currentTable b3 rfl, hword false, hword true⟩

/-- Settles O33: the lookups are those of the word step that the strap selects. -/
theorem stepwMakesFourLookups : Obligations.StepwMakesFourLookups := by
  intro w s t htable
  refine ⟨fun hle => ?_, fun hbe => ?_⟩
  · rw [exec_stepw_of_currentTable w (currentTable_of_storedOrBuilt htable), hle]
    rfl
  · rw [exec_stepw_of_currentTable w (currentTable_of_storedOrBuilt htable), hbe]
    rfl

end Sys2Proof.Machine
end

section
/-!
The streaming update (44_streaming_update.md): the fold of `UPDATE` over its reads is the fold of the byte steps over the
buffer's bytes, and the statements about `UPDATE` and `UPDATE.NB`.
-/

namespace Sys2Proof.Machine

theorem exec_updateNb (s : State) : exec .updateNb s = .next (clearCrc s) :=
  exec_eq_next_effect .updateNb s

theorem exec_update_of_len_zero {s : State} (h : s.len = 0) : exec .update s = .next (clearCrc s) := by
  rw [exec_eq_next_effect, effect_update_of_len_zero s h]

theorem exec_update_of_len_ne_zero {s : State} (h : s.len ≠ 0) : exec .update s = .next (updateBuffer s) := by
  rw [exec_eq_next_effect, effect_update_of_len_ne_zero s h]

@[simp] theorem updateBuffer_crc (s : State) : (updateBuffer s).crc = ~~~foldBuffer s := rfl
@[simp] theorem updateBuffer_acc (s : State) : (updateBuffer s).acc = foldBuffer s := rfl
@[simp] theorem updateBuffer_mem (s : State) : (updateBuffer s).mem = s.mem := rfl

/-- R170, R177: what a non-empty update leaves but for the hidden storage, from a table that is absent or right. -/
theorem updateBuffer_of_ok {s : State} (h : TableOk s) :
    updateBuffer s =
      spoilSequencer { s with tbl := some buildTable, crc := ~~~foldBuffer s, acc := foldBuffer s } := by
  rw [updateBuffer, ensureTable_of_ok h]
  rfl

/-! The bytes of a buffer -/

theorem bufferBytes_eq_map (m : Memory) (a : Word) (n : Nat) : bufferBytes m a n = (bufferAddresses a n).map m.read := by
  rw [bufferBytes, bufferAddresses, List.map_map]
  rfl

/-- A buffer is its first bytes and then the rest, also where the addresses wrap (R67). -/
theorem bufferBytes_add (m : Memory) (a : Word) (i j : Nat) :
    bufferBytes m a (i + j) = bufferBytes m a i ++ bufferBytes m (a + BitVec.ofNat 32 i) j := by
  rw [bufferBytes_eq_map, bufferAddresses_add, List.map_append, ← bufferBytes_eq_map, ← bufferBytes_eq_map]

/-- A buffer is known by its bytes, each by its number in the stream (R61). -/
theorem bufferBytes_eq_map_range {m : Memory} {a : Word} {n : Nat} {byte : Nat → Byte}
    (h : ∀ i < n, m.read (a + BitVec.ofNat 32 i) = byte i) : bufferBytes m a n = (List.range n).map byte :=
  List.map_congr_left fun i hi => h i (List.mem_range.mp hi)

/-! The fold over the reads -/

/-- One read, of one byte or of four, folds in the bytes it covers in stream order (R164, R170). -/
theorem foldAccess_buildTable (be : Bool) (m : Memory) (c : Word) (r : Access) :
    foldAccess be buildTable m c r = ((accessBytes r).map m.read).foldl (byteStep buildTable) c := by
  cases r with
  | byte a => rfl
  | word a => exact wordStep_packWord be c _ _ _ _

/-- A list of reads folds in the bytes they cover, one after the other. -/
theorem foldl_foldAccess_buildTable (be : Bool) (m : Memory) (c : Word) (reads : List Access) :
    reads.foldl (foldAccess be buildTable m) c =
      ((reads.flatMap accessBytes).map m.read).foldl (byteStep buildTable) c := by
  rw [funext₂ (foldAccess_buildTable be m), List.map_flatMap, List.foldl_flatMap]

/-- R175: with the table of the rules the running register ends as the byte steps over the buffer, whatever the strategy,
the byte order and the alignment, because either strategy reads each byte once and in order. -/
theorem foldBuffer_of_ok {s : State} (h : TableOk s) :
    foldBuffer s = (bufferBytes s.mem s.addr s.len.toNat).foldl (byteStep buildTable) (~~~s.crc) := by
  rw [foldBuffer, currentTable_of_ok h, foldl_foldAccess_buildTable, accessBytes_updateReads, ← bufferBytes_eq_map]
  rfl

/-- The table of the rules folds a byte in as the bits do, without the table (R152). -/
theorem byteStep_buildTable_eq_serialStep : byteStep buildTable = serialStep :=
  funext₂ byteStep_buildTable_eq_bitSteps

/-- From `CRC` = 0 the result is the CRC-32 of the buffer's bytes (R210). -/
theorem not_foldBuffer_of_crc_zero {s : State} (h : TableOk s) (hcrc : s.crc = 0) :
    ~~~foldBuffer s = crcOf (bufferBytes s.mem s.addr s.len.toNat) := by
  rw [foldBuffer_of_ok h, byteStep_buildTable_eq_serialStep, hcrc]
  rfl

/-- R178: the complement at the exit of an update and the one at the entry of the next cancel, so the next fold goes on
where the last one ended. -/
theorem foldBuffer_after_updateBuffer {s : State} {lenA lenB : Word} (hok : TableOk s)
    (hsum : lenA.toNat + lenB.toNat < 2 ^ 32) :
    foldBuffer { updateBuffer { s with len := lenA } with addr := s.addr + lenA, len := lenB } =
      foldBuffer { s with len := lenA + lenB } := by
  have hokA : TableOk { s with len := lenA } := hok
  have hokAB : TableOk { s with len := lenA + lenB } := hok
  have hokB : TableOk { updateBuffer { s with len := lenA } with addr := s.addr + lenA, len := lenB } :=
    tableOk_ensureTable hokA
  rw [foldBuffer_of_ok hokB, foldBuffer_of_ok hokAB]
  simp only [updateBuffer_crc, updateBuffer_mem, BitVec.not_not, foldBuffer_of_ok hokA, BitVec.toNat_add_of_lt hsum,
    bufferBytes_add, List.foldl_append, BitVec.ofNat_toNat, BitVec.setWidth_eq]

/-! The statements -/

/-- Settles O35: both forms run the one operation that writes 0 to `CRC`. -/
theorem absentOrEmptyBufferClearsCrc : Obligations.AbsentOrEmptyBufferClearsCrc :=
  fun s => ⟨exec_updateNb s, exec_update_of_len_zero⟩

/-- Settles O36: the fold over the reads is the fold over the bytes. -/
theorem updateFoldsTheBuffer : Obligations.UpdateFoldsTheBuffer := by
  intro s hok hlen bytes c
  have hfold : foldBuffer s = c := foldBuffer_of_ok hok
  have hexec := exec_update_of_len_ne_zero hlen
  rw [updateBuffer_of_ok hok, hfold] at hexec
  refine ⟨⟨_, _, _, hexec⟩, fun hcrc => ?_⟩
  rw [← hfold, not_foldBuffer_of_crc_zero hok hcrc]

/-- Settles O37: the fold over the bytes names neither the strategy nor the byte order, and the place only by its bytes. -/
theorem strategyIsNotObservable : Obligations.StrategyIsNotObservable := by
  intro s s' hok hok' hcrc hlen hbytes
  by_cases hzero : s.len = 0
  · exact ⟨_, _, exec_update_of_len_zero hzero, exec_update_of_len_zero (hlen.trans hzero), rfl, fun h => absurd hzero h⟩
  · have hbuffer : bufferBytes s'.mem s'.addr s.len.toNat = bufferBytes s.mem s.addr s.len.toNat :=
      bufferBytes_eq_map_range hbytes
    have hfold : foldBuffer s' = foldBuffer s := by
      rw [foldBuffer_of_ok hok', foldBuffer_of_ok hok, hcrc, hlen, hbuffer]
    exact ⟨_, _, exec_update_of_len_ne_zero hzero, exec_update_of_len_ne_zero (hlen.trans_ne hzero),
      congrArg (~~~·) hfold, fun _ => hfold⟩

/-- Settles O38: the second fold ends where the fold over both pieces ends, and both results follow from it. -/
theorem updatesChain : Obligations.UpdatesChain := by
  intro s lenA lenB hok hA hB hsum
  have hAB : lenA + lenB ≠ 0 := by bv_omega
  have hfold := foldBuffer_after_updateBuffer hok hsum
  refine ⟨_, _, _, exec_update_of_len_ne_zero hA, exec_update_of_len_ne_zero hB, exec_update_of_len_ne_zero hAB,
    congrArg (~~~·) hfold, hfold, fun hzero => ?_⟩
  rw [updateBuffer_crc, hfold, ← BitVec.toNat_add_of_lt hsum]
  exact not_foldBuffer_of_crc_zero (s := { s with len := lenA + lenB }) hok hzero

/-- The CRC-32 of "123456789", bit by bit (95_test_vectors.md V1). -/
theorem crcOf_digits : crcOf ((List.range 9).map fun i => BitVec.ofNat 8 (0x31 + i)) = 0xCBF43926 := by
  decide +kernel

/-- Settles O41: the result is the CRC-32 of the buffer's bytes, and these are the nine digits. -/
theorem referenceVector : Obligations.ReferenceVector := by
  intro s hok hcrc hlen hbytes
  have hdigits : bufferBytes s.mem s.addr s.len.toNat = (List.range 9).map fun i => BitVec.ofNat 8 (0x31 + i) := by
    rw [hlen]
    exact bufferBytes_eq_map_range hbytes
  have hnot : ~~~foldBuffer s = 0xCBF43926 := by
    rw [not_foldBuffer_of_crc_zero hok hcrc, hdigits, crcOf_digits]
  have hne : s.len ≠ 0 := by
    rw [hlen]
    decide
  refine ⟨_, exec_update_of_len_ne_zero hne, hnot, ?_⟩
  rw [updateBuffer_acc, ← BitVec.not_not (b := foldBuffer s), hnot]
  decide

end Sys2Proof.Machine
end

section
/-!
The matrices of the combiner (46_combine.md): the product as the linear map with the matrix's rows as images of the
one-bit vectors, the squared matrix, the starting matrices, and the loop of R206 as repeated bit steps.
-/

namespace Sys2Proof.Machine

/-! Linear maps on words -/

/-- `f` is linear over GF(2): addition there is the exclusive-or. -/
def XorLinear (f : Word → Word) : Prop := ∀ u v, f (u ^^^ v) = f u ^^^ f v

theorem XorLinear.comp {f g : Word → Word} (hf : XorLinear f) (hg : XorLinear g) : XorLinear (f ∘ g) := fun u v =>
  (congrArg f (hg u v)).trans (hf (g u) (g v))

theorem XorLinear.map_zero {f : Word → Word} (hf : XorLinear f) : f 0 = 0 := by
  have h := hf 0 0
  rwa [BitVec.xor_self, BitVec.xor_self] at h

theorem getLsbD_oneBit (n i : Nat) : (1#32 <<< n).getLsbD i = (decide (n < 32) && decide (n = i)) := by
  rw [← BitVec.twoPow_eq, BitVec.getLsbD_twoPow]

/-- A word with no bit set from `n + 1` on loses bit `n` too where the one-bit vector is taken away. -/
theorem getLsbD_xor_oneBit {v : Word} {n : Nat} (hbit : v.getLsbD n = true)
    (hhigh : ∀ i, n + 1 ≤ i → v.getLsbD i = false) (i : Nat) (hi : n ≤ i) : (v ^^^ 1#32 <<< n).getLsbD i = false := by
  have hn : n < 32 := BitVec.lt_of_getLsbD hbit
  rw [BitVec.getLsbD_xor, getLsbD_oneBit]
  rcases Nat.eq_or_lt_of_le hi with rfl | hlt
  · simp [hbit, hn]
  · simp [hhigh i hlt, hlt.ne]

/-- A linear map is known by the images of the one-bit vectors. -/
theorem XorLinear.eq_of_oneBit {f g : Word → Word} (hf : XorLinear f) (hg : XorLinear g)
    (h : ∀ i : Fin 32, f (1#32 <<< i.val) = g (1#32 <<< i.val)) (v : Word) : f v = g v := by
  suffices hlow : ∀ n, ∀ v : Word, (∀ i, n ≤ i → v.getLsbD i = false) → f v = g v from
    hlow 32 v fun i hi => BitVec.getLsbD_of_ge v i hi
  intro n
  induction n with
  | zero =>
    intro v hv
    have hzero : v = 0 := BitVec.eq_of_getLsbD_eq fun i _ => (hv i i.zero_le).trans BitVec.getLsbD_zero.symm
    rw [hzero, hf.map_zero, hg.map_zero]
  | succ n ih =>
    intro v hv
    cases hbit : v.getLsbD n with
    | false =>
      refine ih v fun i hi => ?_
      rcases Nat.eq_or_lt_of_le hi with rfl | hlt
      · exact hbit
      · exact hv i hlt
    | true =>
      have hrest := ih _ (getLsbD_xor_oneBit hbit hv)
      rw [hf, hg, h ⟨n, BitVec.lt_of_getLsbD hbit⟩] at hrest
      exact (BitVec.xor_left_inj _).mp hrest

/-! The product -/

theorem xorLinear_gf2Times (m : BitMatrix) : XorLinear (gf2Times m) := fun u v => gf2Fold_xor m _ u v 0 0

/-- A one-bit vector adds the row of its bit, where the fold passes that bit once. -/
theorem gf2Fold_oneBit (m : BitMatrix) (i : Fin 32) (l : List (Fin 32)) (hl : l.Nodup) (x : Word) :
    l.foldl (fun sum j => if (1#32 <<< i.val)[j] then sum ^^^ m[j] else sum) x = if i ∈ l then x ^^^ m[i] else x := by
  induction l generalizing x with
  | nil => rfl
  | cons j l ih =>
    obtain ⟨hj, hl⟩ := List.nodup_cons.mp hl
    have hbit : (1#32 <<< i.val)[j] = decide (i = j) := by
      rw [Fin.getElem_fin, ← BitVec.getLsbD_eq_getElem, getLsbD_oneBit]
      simp [Fin.ext_iff]
    rw [List.foldl_cons, ih hl, hbit]
    by_cases hij : i = j
    · subst hij
      simp [hj]
    · simp [hij]

/-- The rows of a matrix are the images of the one-bit vectors (R200, R202). -/
theorem gf2Times_oneBit (m : BitMatrix) (i : Fin 32) : gf2Times m (1#32 <<< i.val) = m[i] := by
  rw [gf2Times, gf2Fold_oneBit m i _ (List.nodup_finRange 32), if_pos (List.mem_finRange i)]
  exact BitVec.zero_xor

/-- A matrix whose rows are the images that a linear map gives the one-bit vectors is that map. -/
theorem gf2Times_of_rows {f : Word → Word} (hf : XorLinear f) {m : BitMatrix}
    (h : ∀ i : Fin 32, m[i] = f (1#32 <<< i.val)) (v : Word) : gf2Times m v = f v :=
  (xorLinear_gf2Times m).eq_of_oneBit hf (fun i => (gf2Times_oneBit m i).trans (h i)) v

/-! The matrices of R203 and R205 -/

theorem gf2Square_row (m : BitMatrix) (n : Fin 32) : (gf2Square m)[n] = gf2Times m m[n] :=
  tabulate_getElem 32 _ n.val n.isLt

theorem zeroBitMatrix_row (n : Fin 32) :
    zeroBitMatrix[n] = if n.val = 0 then Config.poly else 1#32 <<< (n.val - 1) :=
  tabulate_getElem 32 _ n.val n.isLt

/-- The squared matrix is the operator applied twice (R203). -/
theorem gf2Times_gf2Square (m : BitMatrix) : gf2Times (gf2Square m) = (gf2Times m)^[2] :=
  funext <| gf2Times_of_rows ((xorLinear_gf2Times m).comp (xorLinear_gf2Times m)) fun i => by
    rw [gf2Square_row, Function.comp_apply, gf2Times_oneBit]

theorem crcBitStep_oneBit_zero : crcBitStep (1#32 <<< 0) = Config.poly := by decide

/-- A one-bit vector but the lowest is shifted by the bit step. -/
theorem crcBitStep_oneBit_succ {n : Nat} (h : n + 1 < 32) : crcBitStep (1#32 <<< (n + 1)) = 1#32 <<< n := by
  rw [crcBitStep_of_even _ (by simp)]
  apply BitVec.eq_of_getLsbD_eq
  intro i _
  rw [BitVec.getLsbD_ushiftRight, getLsbD_oneBit, getLsbD_oneBit]
  simp [h, Nat.lt_of_succ_lt h, Nat.add_comm 1 i]

/-- The starting matrix is the bit step (R205). -/
theorem gf2Times_zeroBitMatrix : gf2Times zeroBitMatrix = crcBitStep :=
  funext <| gf2Times_of_rows crcBitStep_xor fun i => by
    rw [zeroBitMatrix_row]
    match i with
    | ⟨0, _⟩ => exact crcBitStep_oneBit_zero.symm
    | ⟨n + 1, hn⟩ => exact (crcBitStep_oneBit_succ hn).symm

/-- Squared three times, it is eight bit steps (R201, R206). -/
theorem gf2Times_zeroByteMatrix : gf2Times zeroByteMatrix = crcBitStep^[8] := by
  rw [zeroByteMatrix, gf2Times_gf2Square, gf2Times_gf2Square, gf2Times_gf2Square, gf2Times_zeroBitMatrix]
  rfl

/-! The loop -/

/-- The length that is left after one turn of the loop, and the bit that the turn used. -/
theorem bit_add_two_mul_shift (len : BitVec 64) : (len.getLsbD 0).toNat + 2 * (len >>> 1).toNat = len.toNat := by
  rw [BitVec.toNat_ushiftRight, Nat.shiftRight_one, BitVec.getLsbD, Nat.toNat_testBit, Nat.pow_zero, Nat.div_one]
  exact Nat.mod_add_div len.toNat 2

theorem ite_eq_iterate_toNat (b : Bool) (f : Word → Word) (a : Word) : (if b then f a else a) = f^[b.toNat] a := by
  cases b <;> rfl

/-- Square and multiply: the loop applies the operator as often as the bits left say (R206). Where no set bit is
left, leaving early is right, because the operator applied 0 times is the identity (90_conflicts.md C3). -/
theorem combineLoop_eq_iterate (bits : Nat) (len : BitVec 64) (m : BitMatrix) (a : Word) (h : len.toNat < 2 ^ bits) :
    combineLoop bits len m a = (gf2Times m)^[len.toNat] a := by
  induction bits generalizing len m a with
  | zero => rw [Nat.lt_one_iff.mp h]; rfl
  | succ bits ih =>
    have hsplit := bit_add_two_mul_shift len
    rw [combineLoop, ite_eq_iterate_toNat]
    split
    next hstop => rw [← hsplit, hstop]; rfl
    next =>
      rw [ih (len >>> 1) (gf2Square m) _ (by omega), gf2Times_gf2Square, ← Function.iterate_mul,
        ← Function.iterate_add_apply, Nat.add_comm, hsplit]

/-- The value after the loop, for any length (R206). -/
theorem combineShift_eq_iterate (len : BitVec 64) (c : Word) : combineShift len c = crcBitStep^[8 * len.toNat] c := by
  rw [combineShift, combineLoop_eq_iterate 64 len _ c len.isLt, gf2Times_zeroByteMatrix, ← Function.iterate_mul]

/-! The statements -/

/-- Settles O42: the product is linear, and the fold passes the one bit of a one-bit vector once. -/
theorem productSelectsRows : Obligations.ProductSelectsRows := fun m =>
  ⟨gf2Times_oneBit m, (xorLinear_gf2Times m).map_zero, xorLinear_gf2Times m⟩

/-- Settles O43: both operators are linear and agree on the one-bit vectors. -/
theorem squareIsTheOperatorTwice : Obligations.SquareIsTheOperatorTwice := fun m =>
  ⟨gf2Square_row m, congrFun (gf2Times_gf2Square m)⟩

/-- Settles O44: the rows are the bit step's images of the one-bit vectors, and three squarings make eight bit steps. -/
theorem startingMatrixIsOneZeroBit : Obligations.StartingMatrixIsOneZeroBit := by
  refine ⟨zeroBitMatrix_row 0, fun n hn => ?_, fun v => ⟨congrFun gf2Times_zeroBitMatrix v, ?_⟩⟩
  · rw [zeroBitMatrix_row, if_neg (Nat.ne_of_gt hn)]
  · rw [gf2Times_zeroByteMatrix, byteStep_buildTable_eq_bitSteps, bitSteps_eq_iterate]
    exact congrArg crcBitStep^[8] (BitVec.xor_zero).symm

/-- Settles O45: the loop is square and multiply, from the operator of eight bit steps. -/
theorem combineLoopAppendsZeroBytes : Obligations.CombineLoopAppendsZeroBytes := fun len c _ =>
  combineShift_eq_iterate len c

end Sys2Proof.Machine
end

section
/-!
The two combine commands (46_combine.md): their lengths, what they write and what they do not read, and the checksum of
a concatenation.
-/

namespace Sys2Proof.Machine

theorem exec_comb32 (s : State) : exec .comb32 s = .next (combine (comb32Length s) s) :=
  exec_eq_next_effect .comb32 s

theorem exec_comb64 (s : State) : exec .comb64 s = .next (combine (comb64Length s) s) :=
  exec_eq_next_effect .comb64 s

/-! The lengths -/

/-- Where `LEN` is not negative its sign extension is its extension by zeros (R208). -/
theorem comb32Length_of_msb_false {s : State} (h : s.len.msb = false) : comb32Length s = s.len.setWidth 64 :=
  BitVec.signExtend_eq_setWidth_of_msb_false h

/-- With `LENH` = 0 the length of `COMB64` is `LEN` extended by zeros (R209). -/
theorem comb64Length_of_lenh_zero {s : State} (h : s.lenh = 0) : comb64Length s = s.len.setWidth 64 := by
  rw [comb64Length, h]
  exact (BitVec.setWidth_eq_append (by omega)).symm

/-! What a combine writes -/

theorem exists_combine_of_positive {len : BitVec 64} (s : State) (h : 0 < len.toInt) :
    ∃ e o l n, combine len s =
      { s with
        crc := combineShift len s.crc ^^^ s.crcb
        scratch := { s.scratch with matE := e, matO := o, lenCopy := l }
        freeIdx := n } :=
  ⟨_, _, _, _, combine_of_positive s h⟩

/-- A combine commutes with a change of the table and the memory (R211). -/
theorem combine_with_tbl_mem (len : BitVec 64) (s : State) (tb : Option Table) (m : Memory) :
    combine len { s with tbl := tb, mem := m } = { combine len s with tbl := tb, mem := m } := by
  rcases le_or_gt len.toInt 0 with h | h
  · rw [combine_of_not_positive _ h, combine_of_not_positive _ h]
  · rw [combine_of_positive _ h, combine_of_positive _ h]
    rfl

/-! Checksums -/

/-- Folding bytes into a register with something added leaves that as shifted by as many zero bytes (R201). -/
theorem foldl_serialStep_xor (bytes : List Byte) (c d : Word) :
    bytes.foldl serialStep (c ^^^ d) = bytes.foldl serialStep c ^^^ bitSteps (8 * bytes.length) d := by
  induction bytes generalizing c d with
  | nil => rfl
  | cons b bytes ih =>
    have hstep : serialStep (c ^^^ d) b = serialStep c b ^^^ bitSteps 8 d := by
      rw [serialStep, serialStep, ← bitSteps_xor]
      ac_rfl
    rw [List.foldl_cons, hstep, ih, ← bitSteps_add, List.length_cons, Nat.mul_succ, Nat.add_comm 8]
    rfl

/-- R210 on checksums: the complements at the ends of the three checksums cancel. -/
theorem crcOf_append (xs ys : List Byte) : crcOf (xs ++ ys) = bitSteps (8 * ys.length) (crcOf xs) ^^^ crcOf ys := by
  have hfold := foldl_serialStep_xor ys 0xFFFFFFFF (crcOf xs)
  have hregister : (0xFFFFFFFF : Word) ^^^ crcOf xs = xs.foldl serialStep 0xFFFFFFFF := by
    rw [BitVec.xor_comm]
    exact (BitVec.xor_allOnes (x := crcOf xs)).trans BitVec.not_not
  rw [hregister] at hfold
  rw [crcOf, List.foldl_append, hfold, BitVec.not_xor_left, BitVec.xor_comm]
  rfl

theorem combineShift_eq_bitSteps (len : BitVec 64) (c : Word) : combineShift len c = bitSteps (8 * len.toNat) c := by
  rw [combineShift_eq_iterate, bitSteps_eq_iterate]

/-- R210 on the register: from the checksums of two strings, the second of the combine's length, `CRC` becomes that of
the concatenation; an empty second string has length 0, and `CRC` stays as it is. -/
theorem combine_crc_of_checksums {xs ys : List Byte} {s : State} {len : BitVec 64} (hcrc : s.crc = crcOf xs)
    (hcrcb : s.crcb = crcOf ys) (hlen : len.toNat = ys.length) (hlt : ys.length < 2 ^ 63) :
    (combine len s).crc = crcOf (xs ++ ys) := by
  have hint : len.toInt = ys.length := by rw [BitVec.toInt_eq_toNat_of_lt (by omega), hlen]
  cases ys with
  | nil => rw [combine_of_not_positive s (le_of_eq hint), hcrc, List.append_nil]
  | cons y ys =>
    have hpositive : 0 < len.toInt := by
      rw [hint]
      exact Int.natCast_pos.mpr (Nat.succ_pos _)
    rw [combine_of_positive s hpositive, spoilCombiner_crc, combineShift_eq_bitSteps, hcrc, hcrcb, hlen, ← crcOf_append]

/-! The statements -/

/-- Settles O46: the sign of `LEN` is that of its extension, which for a positive `LEN` is the extension by zeros. -/
theorem comb32CombinesBySignedLen : Obligations.Comb32CombinesBySignedLen := by
  refine fun s => ⟨fun hpos => ?_, fun hneg => ?_⟩
  · have hmsb : s.len.msb = false := by rw [BitVec.msb_eq_toInt, decide_eq_false (not_lt.mpr hpos.le)]
    obtain ⟨e, o, l, n, h⟩ := exists_combine_of_positive s (comb32Length_toInt s ▸ hpos)
    refine ⟨e, o, l, n, ?_⟩
    rw [exec_comb32, h, comb32Length_of_msb_false hmsb]
  · rw [exec_comb32, combine_of_not_positive s (comb32Length_toInt s ▸ hneg)]

/-- Settles O47: the length of `COMB64` is the concatenation itself. -/
theorem comb64CombinesBySignedLength : Obligations.Comb64CombinesBySignedLength := by
  refine fun s => ⟨fun hpos => ?_, fun hneg => ?_⟩
  · obtain ⟨e, o, l, n, h⟩ := exists_combine_of_positive s hpos
    exact ⟨e, o, l, n, (exec_comb64 s).trans (congrArg _ h)⟩
  · exact (exec_comb64 s).trans (congrArg _ (combine_of_not_positive s hneg))

/-- Settles O48: both lengths are `LEN` extended by zeros. -/
theorem comb32AndComb64Agree : Obligations.Comb32AndComb64Agree := by
  intro s hlenh hbit
  have hmsb : s.len.msb = false := (BitVec.msb_eq_getLsbD_last _).trans hbit
  rw [exec_comb64, exec_comb32, comb64Length_of_lenh_zero hlenh, comb32Length_of_msb_false hmsb]

/-- Settles O49: a combine commutes with a change of the table and the memory, and keeps the table. -/
theorem combinerIgnoresTableAndMemory : Obligations.CombinerIgnoresTableAndMemory := by
  rintro i s tb m (rfl | rfl)
  · exact ⟨_, exec_comb32 s, combine_tbl _ s, (exec_comb32 _).trans (congrArg _ (combine_with_tbl_mem _ s tb m))⟩
  · exact ⟨_, exec_comb64 s, combine_tbl _ s, (exec_comb64 _).trans (congrArg _ (combine_with_tbl_mem _ s tb m))⟩

/-- Settles O50: the register's statement for each command's length, and the identity of checksums for zero bytes. -/
theorem combineGivesTheChecksumOfTheConcatenation : Obligations.CombineGivesTheChecksumOfTheConcatenation := by
  refine fun xs ys s hcrc hcrcb => ⟨fun hlen hlt => ?_, fun hlen hlt => ?_, fun n _ hn => ?_⟩
  · exact ⟨_, exec_comb64 s, combine_crc_of_checksums hcrc hcrcb hlen hlt⟩
  · have hmsb : s.len.msb = false := BitVec.msb_eq_false_iff_two_mul_lt.mpr (by omega)
    have hlen64 : (comb32Length s).toNat = ys.length := by
      rw [comb32Length_of_msb_false hmsb, BitVec.toNat_setWidth_of_le (by omega), hlen]
    exact ⟨_, exec_comb32 s, combine_crc_of_checksums hcrc hcrcb hlen64 (by omega)⟩
  · rw [combineShift_eq_bitSteps, hcrc, crcOf_append, List.length_replicate, BitVec.toNat_ofNat,
      Nat.mod_eq_of_lt (by omega), BitVec.xor_assoc, BitVec.xor_self, BitVec.xor_zero]

end Sys2Proof.Machine
end

section
/-!
No state makes a step stop (60_exceptions.md): every action of the host has a next state.
-/

namespace Sys2Proof.Machine

/-- A word presented in any state has a next state: the host waits with it, or it runs as a command or as illegal
(R90, R230, R231). -/
theorem exists_step_of_inputs_present {s : State} {cw : CmdWord} {rest : List HostAction}
    (hin : s.inputs = .present cw :: rest) : ∃ t, step s = .next t := by
  obtain ⟨hready, hwait⟩ := wordAcceptedExactlyWhenNotBusy s cw rest hin
  cases hbusy : s.busy with
  | false =>
    obtain ⟨t, hstep, -⟩ := hready hbusy
    exact ⟨t, hstep⟩
  | true => exact ⟨s, hwait hbusy⟩

/-- Settles O9, by the host's next action. -/
theorem everyStepAnswersANextState : Obligations.EveryStepAnswersANextState := by
  intro s
  match hin : s.inputs with
  | [] => exact ⟨s, step_of_inputs_nil hin⟩
  | .present _ :: _ => exact exists_step_of_inputs_present hin
  | .takeResponse :: _ => exact ⟨_, step_of_inputs_takeResponse hin⟩
  | .store _ _ :: _ => exact ⟨_, step_of_inputs_store hin⟩
  | .reset _ :: _ => exact ⟨_, step_of_inputs_reset hin⟩

end Sys2Proof.Machine
end

section
/-!
The host's reset (70_reset_and_hazards.md), and a word placed at the port, which the next step accepts.
-/

namespace Sys2Proof.Machine

/-- Settles O13: whether a command is in progress plays no part in the reset; the hidden storage takes the value the
configuration gives it, and its index moves on. -/
theorem hostResetRestoresResetValues : Obligations.HostResetRestoresResetValues := fun s _ _ hin =>
  ⟨Config.freeScratch s.freeIdx, s.freeIdx + 1, step_of_inputs_reset hin⟩

/-- The table of words and the port's decoder agree. -/
theorem decode_of_decodeTableWord {nbits w : Nat} {i : Instr} (h : decodeTableWord nbits w = some i) :
    decode (BitVec.ofNat 64 (w % 2 ^ nbits)) = .ok i := by
  rw [decodeTableWord] at h
  cases hdec : decode (BitVec.ofNat 64 (w % 2 ^ nbits)) with
  | ok j =>
    rw [hdec] at h
    exact congrArg _ (Option.some.inj h)
  | error c =>
    rw [hdec] at h
    exact nomatch h

@[simp] theorem withFetchWord_busy (s : State) (nbits w : Nat) : (s.withFetchWord nbits w).busy = false := rfl

@[simp] theorem withFetchWord_inputs (s : State) (nbits w : Nat) :
    (s.withFetchWord nbits w).inputs = .present (BitVec.ofNat 64 (w % 2 ^ nbits)) :: s.inputs := rfl

/-- Accepting a placed word takes it off the host's list again. -/
@[simp] theorem acceptWord_withFetchWord (s : State) (nbits w : Nat) :
    acceptWord s.inputs (s.withFetchWord nbits w) = { s with busy := true } := rfl

/-- Settles O6: the placed word is presented at a ready port, so the step is that of an accepted command. -/
theorem placedWordRunsNext : Obligations.PlacedWordRunsNext := by
  intro s nbits w i hword
  obtain ⟨t, hexec, hstep⟩ := stepRunsDecodedCommand (s.withFetchWord nbits w) _ s.inputs i
    (withFetchWord_busy s nbits w) (withFetchWord_inputs s nbits w) (decode_of_decodeTableWord hword)
  have haccepted : exec i { s with busy := true } = .next t := by
    rw [← acceptWord_withFetchWord s nbits w]
    exact hexec
  exact ⟨t, haccepted, hstep⟩

end Sys2Proof.Machine
end
